-- ==== Sys2Proof/Word.lean ====
section
/-! DEFINITION. The word types of the block: everything the spec adds, shifts or masks is an unsigned bit vector
(spec 30_encoding R71, 00_scope R7); counts, string lengths and delay arguments are natural numbers. -/

namespace Sys2Proof

/-- A frame, a character, a bitmap row, a geometry value, a command byte (R71). -/
abbrev Byte := BitVec 8

/-- A logical nibble: what the display controller takes in one enable cycle (00_scope glossary). -/
abbrev Nibble := BitVec 4

/-- A bit position of the pin map, 0 to 7 (R7, R12 to R15). -/
abbrev Pos := BitVec 3

/-- A bus address of the two-wire bus (R16). -/
abbrev BusAddr := BitVec 7

/-- The mode operand of the transfer primitives (30_encoding R58). -/
inductive Mode where
  /-- The register-select bit is left 0. -/
  | command
  /-- The register-select bit is ORed in. -/
  | data
  deriving DecidableEq, Repr

/-- The eight rows of one glyph, row 0 (the top row) first (R57, R113). -/
abbrev Bitmap := Vector Byte 8

end Sys2Proof
end

