-- ==== Sys2Proof/Config.lean ====
section
/-! DEFINITION. The parameters of the model (spec 00_scope R5): the numbers the source fixes, the defaults the spec
supplies, and, without a body, the parameters the spec leaves OPEN (log entries 1, 2) and the one value it does not
state (log entry 14). -/

namespace Sys2Proof.Config

/-- `OP_SET_DDRAM`, fixed (R5, R110). -/
def opSetDdram : Byte := 0x80#8

/-- `OP_SET_CGRAM`, the value of the source's own example (R5, R113, 91_not_in_source N12). -/
def opSetCgram : Byte := 0x40#8

/-- `SPACE`, fixed (R5). -/
def space : Byte := 32#8

/-- `CTRL_LIMIT`, fixed: codes below it are replaced (R5, R63). -/
def ctrlLimit : Byte := 32#8

/-- `NIB_FORCE8`, fixed (R5, R54). -/
def nibForce8 : Nibble := 0x3#4

/-- `NIB_SWITCH4`, fixed (R5, R54). -/
def nibSwitch4 : Nibble := 0x2#4

/-- `T_POWER_MS` (R5, R91). -/
def tPowerMs : Nat := 15

/-- `T_FORCE8_MS` (R5, R92). -/
def tForce8Ms : Nat := 5

/-- `T_CLEAR_MS` (R5, R98). -/
def tClearMs : Nat := 2

/-- `CMD_FUNCTION_SET`, the spec's default (R5, R55). PRESUMED by the spec from general knowledge: log entry 3. -/
def cmdFunctionSet : Byte := 0x28#8

/-- `CMD_DISPLAY_ON`, the spec's default (R5, R55). PRESUMED by the spec from general knowledge: log entry 3. -/
def cmdDisplayOn : Byte := 0x0C#8

/-- `CMD_CLEAR`, the spec's default (R5, R55). PRESUMED by the spec from general knowledge: log entry 3. -/
def cmdClear : Byte := 0x01#8

/-- `CMD_ENTRY_MODE`, the spec's default (R5, R55). PRESUMED by the spec from general knowledge: log entry 3. -/
def cmdEntryMode : Byte := 0x06#8

/-- `STR_TERM`, the spec's default (R5, R67). PRESUMED by the spec from general knowledge: log entry 5. -/
def strTerm : Byte := 0x00#8

/-- `ROWOFF[0..3]`, fixed (R22). -/
def rowOffTable : List Byte := [0x00#8, 0x40#8, 0x14#8, 0x54#8]

/-- `HAS_GLYPHS`, OPEN (R5, R100): no body, so that a claim holds for both variants. Log entry 1. -/
opaque hasGlyphs : Bool

/-- `GLYPH_ROM[slot]`, OPEN (R5, R23): no body, so that no claim rests on a bitmap. Log entry 2. -/
opaque glyphRom : Fin 8 → Bitmap

/-- What the row table would give for a row index above 3: a free value, since the table has four entries (R22) and
the index never exceeds 3 (R61). Log entry 14. -/
opaque rowOffBeyond : Byte → Byte

end Sys2Proof.Config
end

