-- ==== Sys2Proof/Syntax.lean ====
section
/-! DEFINITION. One constructor per row of spec/opcode_table.json: the eight operations the host issues
(spec 30_encoding R56) and the eleven formats the block emits (R50, R53, R54, R55). Operands of a host operation are
its raw operand bytes, because the state check comes before the operand check (60_exceptions R140); which of them are
legal is `Instr.wellFormed`. -/

namespace Sys2Proof

/-- The format a row of the opcode table belongs to (30_encoding, rules R50 to R56). -/
inductive Format where
  /-- The command port, host to block (R56). -/
  | host
  /-- The first byte of a bus transaction (R53). -/
  | addrw
  /-- A byte written to the expander's port (R50). -/
  | frame
  /-- A single logical nibble in Command mode (R54). -/
  | lcdNib
  /-- A logical Command byte (R55). -/
  | lcdCmd
  /-- A logical Data byte (R55). -/
  | lcdData
  deriving DecidableEq, Repr

/-- The instructions: host operations and emissions. -/
inductive Instr where
  /-- `INIT(columns, rows, busAddress, nibbleOrder, enableBit, rwBit, rsBit, backlightBit)` (R90 to R106). -/
  | init (columns rows busAddress nibbleOrder enableBit rwBit rsBit backlightBit : Byte)
  /-- `SETCURSOR(column, row)` (R110). -/
  | setcursor (column row : Byte)
  /-- `CLEARLINE(row)` (R111). -/
  | clearline (row : Byte)
  /-- `SETBACKLIGHT(on)` (R112). -/
  | setbacklight (on : Byte)
  /-- `LOADGLYPH(bitmap[0..7], slot)` (R113). -/
  | loadglyph (bitmap : Bitmap) (slot : Byte)
  /-- `PRINTCHAR(c)` (R120). -/
  | printchar (c : Byte)
  /-- `PRINT(s)`; the list is without the terminator (R121, 92_eei_decisions D18). -/
  | print (text : List Byte)
  /-- `PRINTCENTER(s)` (R122). -/
  | printcenter (text : List Byte)
  /-- ADDRW: the address byte of a bus transaction is written to the bus (R53). -/
  | addrw (a : BusAddr)
  /-- FRAME: one frame is written to the expander (R50). -/
  | frame (f : Byte)
  /-- FORCE8: the logical nibble 3 of INIT steps 2 to 4 (R92 to R94). -/
  | force8
  /-- SWITCH4: the logical nibble 2 of INIT step 5 (R95). -/
  | switch4
  /-- FUNCTION_SET: the Command byte of INIT step 6 (R96). -/
  | functionSet
  /-- DISPLAY_ON: the Command byte of INIT step 7 (R97). -/
  | displayOn
  /-- CLEAR: the Command byte of INIT step 8 and its wait (R98). -/
  | clear
  /-- ENTRY_MODE: the Command byte of INIT step 9 (R99). -/
  | entryMode
  /-- SET_CGRAM: the Command byte `01sssrrr` (R62, R113). -/
  | setCgram (slot row : BitVec 3)
  /-- SET_DDRAM: the Command byte `1aaaaaaa` (R61, R110). -/
  | setDdram (a : BitVec 7)
  /-- DATA: a logical Data byte (R55, R120). -/
  | data (d : Byte)
  deriving DecidableEq, Repr

end Sys2Proof
end

