-- ==== Sys2Proof/WellFormed.lean ====
section
/-! DEFINITION. The legal operand values of an instruction (spec 30_encoding R57). An operation whose operand lies
outside them is refused (R66); an emission has no operand that can be illegal. -/

namespace Sys2Proof

/-- The legal operands of INIT (R57, 92_eei_decisions D16); the positions may collide (R52). -/
def initLegal (columns rows busAddress nibbleOrder enableBit rwBit rsBit backlightBit : Byte) : Bool :=
  decide (1 ≤ columns.toNat) && (decide (1 ≤ rows.toNat) && decide (rows.toNat ≤ 4)) && decide (busAddress.toNat ≤ 0x7F)
    && decide (nibbleOrder.toNat ≤ 1) && decide (enableBit.toNat ≤ 7) && decide (rwBit.toNat ≤ 7)
    && decide (rsBit.toNat ≤ 7) && decide (backlightBit.toNat ≤ 7)

/-- The legal operand of SETBACKLIGHT: 0 or 1 (R57, 92_eei_decisions D17). -/
def onLegal (on : Byte) : Bool := decide (on.toNat ≤ 1)

/-- The legal slot of LOADGLYPH: 0 to 7 (R57). -/
def slotLegal (slot : Byte) : Bool := decide (slot.toNat ≤ 7)

/-- A string operand has no character equal to the terminator (R57, R67). -/
def textLegal (text : List Byte) : Bool := !text.contains Config.strTerm

/-- Every operand has a legal value (R57). -/
def Instr.wellFormed : Instr → Bool
  | .init c r a n e w s b => initLegal c r a n e w s b
  | .setcursor _ _ => true
  | .clearline _ => true
  | .setbacklight on => onLegal on
  | .loadglyph _ slot => slotLegal slot
  | .printchar _ => true
  | .print text => textLegal text
  | .printcenter text => textLegal text
  | .addrw _ => true
  | .frame _ => true
  | .force8 => true
  | .switch4 => true
  | .functionSet => true
  | .displayOn => true
  | .clear => true
  | .entryMode => true
  | .setCgram _ _ => true
  | .setDdram _ => true
  | .data _ => true

end Sys2Proof
end

