-- ==== Sys2Proof/Decode.lean ====
section
/-! DEFINITION. The encodings (spec 30_encoding R50 to R67 and opcode_table.json). `decode` reads one operation from the
bytes of the command port and rejects by name; `decodeAs` reads a byte of any of the table's formats; `encode` writes
the bytes of an instruction in its own format. -/

namespace Sys2Proof

/-- What the decoder finds at the head of a list of bytes. -/
inductive Decoded where
  /-- One instruction, and the bytes after it. -/
  | ok (i : Instr) (rest : List Byte)
  /-- The bytes so far begin an instruction that is not complete; the host has bytes still to hand over (R153). -/
  | incomplete
  /-- The first byte selects nothing in this format (R65). -/
  | reserved (opcode : Byte)
  deriving DecidableEq, Repr

/-- A string operand ends at the first terminator, which is not one of its characters (R67). -/
def takeText : List Byte → Option (List Byte × List Byte)
  | [] => none
  | b :: bs =>
    if b = Config.strTerm then some ([], bs)
    else match takeText bs with
      | some (text, rest) => some (b :: text, rest)
      | none => none

/-- The opcode byte of the command port (R56, R64): the eight operations, each with its operand bytes in the source's
order; every other opcode is reserved (R65). -/
def decode : List Byte → Decoded
  | [] => .incomplete
  | op :: bs =>
    if op = 0x01#8 then
      match bs with
      | c :: r :: a :: n :: e :: w :: s :: b :: rest => .ok (.init c r a n e w s b) rest
      | _ => .incomplete
    else if op = 0x02#8 then
      match bs with
      | c :: r :: rest => .ok (.setcursor c r) rest
      | _ => .incomplete
    else if op = 0x03#8 then
      match bs with
      | r :: rest => .ok (.clearline r) rest
      | _ => .incomplete
    else if op = 0x04#8 then
      match bs with
      | on :: rest => .ok (.setbacklight on) rest
      | _ => .incomplete
    else if op = 0x05#8 then
      match bs with
      | b0 :: b1 :: b2 :: b3 :: b4 :: b5 :: b6 :: b7 :: slot :: rest =>
        .ok (.loadglyph #v[b0, b1, b2, b3, b4, b5, b6, b7] slot) rest
      | _ => .incomplete
    else if op = 0x06#8 then
      match bs with
      | c :: rest => .ok (.printchar c) rest
      | _ => .incomplete
    else if op = 0x07#8 then
      match takeText bs with
      | some (text, rest) => .ok (.print text) rest
      | none => .incomplete
    else if op = 0x08#8 then
      match takeText bs with
      | some (text, rest) => .ok (.printcenter text) rest
      | none => .incomplete
    else .reserved op

/-- A logical nibble of format LCD-NIB, in the low half of the byte (R54). -/
def decodeNib (b : Byte) (rest : List Byte) : Decoded :=
  if b = Config.nibForce8.setWidth 8 then .ok .force8 rest
  else if b = Config.nibSwitch4.setWidth 8 then .ok .switch4 rest
  else .reserved b

/-- A logical Command byte (R55): bit 7 SET_DDRAM, else bit 6 SET_CGRAM, else one of the four fixed bytes; the block
emits no other (R55, R64). -/
def decodeCmd (b : Byte) (rest : List Byte) : Decoded :=
  if b.getLsbD 7 then .ok (.setDdram (b.setWidth 7)) rest
  else if b.getLsbD 6 then .ok (.setCgram (b.extractLsb' 3 3) (b.extractLsb' 0 3)) rest
  else if b = Config.cmdFunctionSet then .ok .functionSet rest
  else if b = Config.cmdDisplayOn then .ok .displayOn rest
  else if b = Config.cmdEntryMode then .ok .entryMode rest
  else if b = Config.cmdClear then .ok .clear rest
  else .reserved b

/-- An address byte (R53): bits 7:1 the device address; bit 0 is the direction, and only write (0) is ever formed. -/
def decodeAddrw (b : Byte) (rest : List Byte) : Decoded :=
  if b.getLsbD 0 then .reserved b else .ok (.addrw (b.extractLsb' 1 7)) rest

/-- The decoder of every format of the opcode table. -/
def decodeAs : Format → List Byte → Decoded
  | .host, bs => decode bs
  | _, [] => .incomplete
  | .addrw, b :: rest => decodeAddrw b rest
  | .frame, b :: rest => .ok (.frame b) rest
  | .lcdNib, b :: rest => decodeNib b rest
  | .lcdCmd, b :: rest => decodeCmd b rest
  | .lcdData, b :: rest => .ok (.data b) rest

/-- The format an instruction's row has in the opcode table. -/
def Instr.format : Instr → Format
  | .init _ _ _ _ _ _ _ _ => .host
  | .setcursor _ _ => .host
  | .clearline _ => .host
  | .setbacklight _ => .host
  | .loadglyph _ _ => .host
  | .printchar _ => .host
  | .print _ => .host
  | .printcenter _ => .host
  | .addrw _ => .addrw
  | .frame _ => .frame
  | .force8 => .lcdNib
  | .switch4 => .lcdNib
  | .functionSet => .lcdCmd
  | .displayOn => .lcdCmd
  | .clear => .lcdCmd
  | .entryMode => .lcdCmd
  | .setCgram _ _ => .lcdCmd
  | .setDdram _ => .lcdCmd
  | .data _ => .lcdData

/-- The address byte with write intent: the 7-bit address in bits 7:1, bit 0 = 0 (R53). PRESUMED by the spec from
general knowledge: log entry 4. -/
def addrwByte (a : BusAddr) : Byte := a.setWidth 8 <<< 1

/-- The Command byte `01sssrrr` of a CGRAM row (R62): base `(slot << 3) | OP_SET_CGRAM`, plus the row. -/
def cgramByte (slot row : BitVec 3) : Byte := ((slot.setWidth 8 <<< 3) ||| Config.opSetCgram) + row.setWidth 8

/-- The Command byte `1aaaaaaa` of a DDRAM address (R61). -/
def ddramByte (a : BitVec 7) : Byte := Config.opSetDdram ||| a.setWidth 8

/-- The bytes of an instruction in its own format (R53 to R56). -/
def encode : Instr → List Byte
  | .init c r a n e w s b => [0x01#8, c, r, a, n, e, w, s, b]
  | .setcursor c r => [0x02#8, c, r]
  | .clearline r => [0x03#8, r]
  | .setbacklight on => [0x04#8, on]
  | .loadglyph bitmap slot => 0x05#8 :: (bitmap.toList ++ [slot])
  | .printchar c => [0x06#8, c]
  | .print text => 0x07#8 :: (text ++ [Config.strTerm])
  | .printcenter text => 0x08#8 :: (text ++ [Config.strTerm])
  | .addrw a => [addrwByte a]
  | .frame f => [f]
  | .force8 => [Config.nibForce8.setWidth 8]
  | .switch4 => [Config.nibSwitch4.setWidth 8]
  | .functionSet => [Config.cmdFunctionSet]
  | .displayOn => [Config.cmdDisplayOn]
  | .clear => [Config.cmdClear]
  | .entryMode => [Config.cmdEntryMode]
  | .setCgram slot row => [cgramByte slot row]
  | .setDdram a => [ddramByte a]
  | .data d => [d]

/-- The length in bytes the table gives a row (R56): `len + 2` for the two string operations, one byte for an
emission. -/
def Instr.length : Instr → Nat
  | .init _ _ _ _ _ _ _ _ => 9
  | .setcursor _ _ => 3
  | .clearline _ => 2
  | .setbacklight _ => 2
  | .loadglyph _ _ => 10
  | .printchar _ => 2
  | .print text => text.length + 2
  | .printcenter text => text.length + 2
  | .addrw _ => 1
  | .frame _ => 1
  | .force8 => 1
  | .switch4 => 1
  | .functionSet => 1
  | .displayOn => 1
  | .clear => 1
  | .entryMode => 1
  | .setCgram _ _ => 1
  | .setDdram _ => 1
  | .data _ => 1

/-- The command-port bytes of a table word: bit 0 of `w` is the least significant bit of the first byte, and zeros stand
above `nbits`, up to ten bytes (the longest operation of fixed length, R56). -/
def tableBytes (nbits w : Nat) : List Byte :=
  ((List.range ((nbits + 7) / 8)).map fun k => BitVec.ofNat 8 (w % 2 ^ nbits / 2 ^ (8 * k)))
    ++ List.replicate (10 - (nbits + 7) / 8) 0x00#8

/-- What the command port's decoder reads from a table word. The eleven emission rows are never read by the block
(R70), so a word of theirs reads as whatever operation its bits are on the command port, or as nothing where R65
reserves them: log entry 13. -/
def decodeTableWord (nbits w : Nat) : Option Instr :=
  match decode (tableBytes nbits w) with
  | .ok i _ => some i
  | _ => none

end Sys2Proof
end

