-- ==== Sys2Proof/Machine/State.lean ====
section
/-! DEFINITION. The state as plain data: the eleven registers of spec 10_state R10 to R20, the trace of R24, and the
environment's inputs (70_reset_and_hazards R153): the command bytes still to come and what happens at the ports. -/

namespace Sys2Proof.Machine

/-- The states of the initialization machine, in the source's order (R20); the numbers are `Fsm.code`. -/
inductive Fsm where
  | powerWait
  | force8BitA
  | force8BitB
  | force8BitC
  | switch4Bit
  | functionSet
  | displayOn
  | clear
  | entryModeSet
  | glyphLoad
  | ready
  deriving DecidableEq, Repr

/-- An event at one of the two output ports (00_scope section 4, R24). -/
inductive Event where
  /-- `busStart()`. -/
  | start
  /-- `busWriteByte(b)`. -/
  | write (b : Byte)
  /-- `busStop()`. -/
  | stop
  /-- `delayMilliseconds(n)`. -/
  | delayMs (n : Nat)
  /-- `delayMicroseconds(n)`: the port has it and no rule issues it (60_exceptions R142). -/
  | delayUs (n : Nat)
  deriving DecidableEq, Repr

/-- What the environment does at the next event of the block (R85, R133, R151, R153). -/
inductive PortIn where
  /-- The event completes (`bus_done` or `dly_done`); `ack` is the acknowledge of a WRITE, which no rule reads. -/
  | done (ack : Bool)
  /-- `rst` is asserted before the event is issued. -/
  | reset
  /-- The event is issued and never completes: the block waits from then on (R85). -/
  | hang
  deriving DecidableEq, Repr

/-- The pin map (30_encoding R50): the nibble order and the four positions. -/
structure PinMap where
  /-- `NIB`: true is 1, data on frame bits 7:4; false is 0, data on bits 3:0 (R11). -/
  nib : Bool
  /-- `EN_POS` (R12). -/
  enPos : Pos
  /-- `RW_POS` (R13). -/
  rwPos : Pos
  /-- `RS_POS` (R14). -/
  rsPos : Pos
  /-- `BL_POS` (R15). -/
  blPos : Pos
  deriving DecidableEq, Repr

/-- The machine's state. -/
structure State where
  /-- `NIB`, 1 bit (R11). -/
  nib : Bool
  /-- `EN_POS`, 3 bits (R12). -/
  enPos : Pos
  /-- `RW_POS`, 3 bits (R13): written by INIT, read by no rule. -/
  rwPos : Pos
  /-- `RS_POS`, 3 bits (R14). -/
  rsPos : Pos
  /-- `BL_POS`, 3 bits (R15). -/
  blPos : Pos
  /-- `ADDR`, 7 bits (R16). -/
  addr : BusAddr
  /-- `MAXCOL`, 8 bits (R17). -/
  maxCol : Byte
  /-- `MAXROW`, 8 bits (R17). -/
  maxRow : Byte
  /-- `BL`, 1 bit (R18). -/
  bl : Bool
  /-- `LATCH`, 8 bits (R19). -/
  latch : Byte
  /-- `FSM` (R20). -/
  fsm : Fsm
  /-- The block waits for a port event that never completes (R85): no register, the place between two small steps where
  it is stuck. Log entry 9. -/
  waiting : Bool
  /-- `T`, the trace (R24), oldest event first. -/
  trace : List Event
  /-- The command-port bytes the host has still to hand over (R153). -/
  cmd : List Byte
  /-- What the environment does at the coming events, next first; where the list ends, every further event completes
  and no reset arrives (R159). Log entry 9. -/
  port : List PortIn
  deriving DecidableEq, Repr

/-- The faults: none. The block raises no exception, fault, trap or error (60_exceptions R130), and being stuck at a port
is a state, not a fault (R85, 93_implementation_defined U11). -/
inductive Fault where
  deriving DecidableEq, Repr

/-- Why an operation has no meaning (60_exceptions R140). A refused operation changes no register and issues no event. -/
inductive Refusal where
  /-- An instruction exec gives no meaning yet; raised by exec's arm alone. Safe. -/
  | notModelled (mnemonic : String)
  /-- Raised by `step`: the opcode byte selects no operation (R65). Safe. -/
  | reservedOpcode (opcode : Byte)
  /-- Raised by the operations: the state machine is not where the operation is accepted (R140). Safe. -/
  | notReady
  /-- Raised by INIT, SETBACKLIGHT, LOADGLYPH, PRINT, PRINTCENTER: an operand outside its legal values (R66). Safe. -/
  | badOperand
  deriving DecidableEq, Repr

/-- The pin map the registers hold. -/
def State.pins (s : State) : PinMap :=
  { nib := s.nib, enPos := s.enPos, rwPos := s.rwPos, rsPos := s.rsPos, blPos := s.blPos }

/-- The state after reset (R27): `FSM`, `BL`, `LATCH` and `T` as the spec says; the eight configuration registers,
which it leaves unspecified, are 0 (DESIGN CHOICE, log entry 6); nothing offered, nothing pending at the ports and no
wait (DESIGN CHOICE, log entries 9 and 10). -/
def State.reset : State :=
  { nib := false, enPos := 0#3, rwPos := 0#3, rsPos := 0#3, blPos := 0#3, addr := 0#7, maxCol := 0#8, maxRow := 0#8
    bl := false, latch := 0x00#8, fsm := .powerWait, waiting := false, trace := [], cmd := [], port := [] }

end Sys2Proof.Machine
end

