-- ==== Sys2Proof/Machine/Operands.lean ====
section
/-! DEFINITION. Operand assembly (spec 30_encoding R57 to R63) and the arithmetic of the operands (R71 to R76). -/

namespace Sys2Proof.Machine

/-- `bit(p)`: the byte with a 1 at position `p` (R72). -/
def bit (p : Pos) : Byte := 1#8 <<< p.toNat

/-- `DMASK`: the half of the frame that holds the data (R59). -/
def dataMask (nib : Bool) : Byte := if nib then 0xF0#8 else 0x0F#8

/-- `Pos(n)`: the logical nibble at the data-line positions (R59). -/
def posNibble (nib : Bool) (n : Nibble) : Byte := if nib then n.setWidth 8 <<< 4 else n.setWidth 8

/-- The positioned nibble a byte transfer sends first (R60). -/
def splitFirst (nib : Bool) (v : Byte) : Byte := if nib then v &&& 0xF0#8 else v >>> 4

/-- The positioned nibble a byte transfer sends second (R60); the shift is taken on 8 bits. -/
def splitSecond (nib : Bool) (v : Byte) : Byte := if nib then v <<< 4 else v &&& 0x0F#8

/-- The unsigned minimum, the clamp of R73. -/
def minByte (a b : Byte) : Byte := if a ≤ b then a else b

/-- `ROWOFF[r]` (R22); beyond the table a free value, which no reachable state reads (log entry 14). -/
def rowOff (r : Byte) : Byte := Config.rowOffTable.getD r.toNat (Config.rowOffBeyond r)

/-- The DDRAM address of a cursor request (R61): both coordinates clamped, the sum on 8 bits. -/
def ddramAddr (maxCol maxRow column row : Byte) : Byte := minByte column maxCol + rowOff (minByte row maxRow)

/-- The Command byte of a cursor request, `0x80 | a` (R61). -/
def cursorByte (maxCol maxRow column row : Byte) : Byte := Config.opSetDdram ||| ddramAddr maxCol maxRow column row

/-- The first CGRAM Command byte of a slot (R62). -/
def cgramBase (slot : Byte) : Byte := (slot <<< 3) ||| Config.opSetCgram

/-- `San(c)` (R63): codes below 32, unsigned, become a space. -/
def san (c : Byte) : Byte := if c < Config.ctrlLimit then Config.space else c

/-- `lead` of PRINTCENTER (R75): on natural numbers, 0 where the string is longer than the row. -/
def leadSpaces (maxCol : Byte) (len : Nat) : Nat := (maxCol.toNat + 1 - len) / 2

/-- The number of spaces of CLEARLINE, `NCOLS + 1` (R76). -/
def clearCount (maxCol : Byte) : Nat := maxCol.toNat + 2

end Sys2Proof.Machine
end

