-- ==== Sys2Proof/Machine/Flags.lean ====
section
/-! DEFINITION. The block's one flag, `BL` (spec 10_state R18): what it contributes to a frame and how SETBACKLIGHT
recomputes the latch byte from it. No operation sets a flag as a side effect and none branches on one. -/

namespace Sys2Proof.Machine

/-- The flag an operand byte stores: 1 is true (R112). -/
def onFlag (on : Byte) : Bool := on.getLsbD 0

/-- The bits the flag ORs into a frame (R80). -/
def backlightBits (blPos : Pos) (bl : Bool) : Byte := if bl then bit blPos else 0x00#8

/-- The latch byte with the backlight bit set according to the flag (R112). -/
def relight (latch : Byte) (blPos : Pos) (bl : Bool) : Byte := (latch &&& ~~~(bit blPos)) ||| backlightBits blPos bl

end Sys2Proof.Machine
end

