-- ==== Sys2Proof/Machine/Ops.lean ====
section
/-! DEFINITION. The named operations over registers and ports: the small steps of spec 40_transfer_primitives R85, the
three primitives SendNibble (R80), SendByte (R82) and LatchWrite (R84), the configuration write of INIT (R90), the
reset event (R150), and the acceptance of display operations (60_exceptions R140). The block takes no exception
(R130), so there is no operation for entering one. -/

namespace Sys2Proof.Machine

/-- The spec's number of a state of the machine (R20). -/
def Fsm.code : Fsm → BitVec 4
  | .powerWait => 0#4
  | .force8BitA => 1#4
  | .force8BitB => 2#4
  | .force8BitC => 3#4
  | .switch4Bit => 4#4
  | .functionSet => 5#4
  | .displayOn => 6#4
  | .clear => 7#4
  | .entryModeSet => 8#4
  | .glyphLoad => 9#4
  | .ready => 10#4

/-- The states in which the block rests between operations (R20, R140). -/
def Fsm.idle : Fsm → Bool
  | .powerWait => true
  | .ready => true
  | _ => false

/-- One event is appended to the trace (R24). -/
def State.emit (s : State) (e : Event) : State := { s with trace := s.trace ++ [e] }

/-- `FSM <- f` (R20). -/
def State.setFsm (s : State) (f : Fsm) : State := { s with fsm := f }

/-- `LATCH <- b` (R19). -/
def State.setLatch (s : State) (b : Byte) : State := { s with latch := b }

/-- `BL <- on` (R112). -/
def State.setBl (s : State) (on : Bool) : State := { s with bl := on }

/-- `BusStart()`. -/
def busStart (s : State) : State := s.emit .start

/-- `BusStop()`. -/
def busStop (s : State) : State := s.emit .stop

/-- `BusWrite` of an address byte: no register changes (R53, R19). -/
def busWriteAddr (a : BusAddr) (s : State) : State := s.emit (.write (addrwByte a))

/-- `BusWrite` of a frame together with `LATCH <- frame`, one small step (R19, R85). -/
def busWriteFrame (f : Byte) (s : State) : State := (s.emit (.write f)).setLatch f

/-- `DelayMs(n)`. -/
def delayMs (n : Nat) (s : State) : State := s.emit (.delayMs n)

/-- `out` of R80: the data bits, the register-select bit in Data mode, the backlight bit; the read/write bit never. -/
def frameOut (pm : PinMap) (bl : Bool) (p : Byte) (m : Mode) : Byte :=
  (p &&& dataMask pm.nib) ||| (match m with | .data => bit pm.rsPos | .command => 0x00#8) ||| backlightBits pm.blPos bl

/-- `hi` of R80: the frame with the enable bit set. -/
def frameHi (pm : PinMap) (bl : Bool) (p : Byte) (m : Mode) : Byte := frameOut pm bl p m ||| bit pm.enPos

/-- `lo` of R80: the frame with the enable bit cleared. -/
def frameLo (pm : PinMap) (bl : Bool) (p : Byte) (m : Mode) : Byte := frameOut pm bl p m &&& ~~~(bit pm.enPos)

/-- SendNibble (R80): one enable cycle, two frames behind one address byte. -/
def sendNibble (p : Byte) (m : Mode) (s : State) : State :=
  let hi := frameHi s.pins s.bl p m
  let lo := frameLo s.pins s.bl p m
  busStop (busWriteFrame lo (busWriteFrame hi (busWriteAddr s.addr (busStart s))))

/-- SendByte (R82): two enable cycles, the high nibble of the byte first. -/
def sendByte (v : Byte) (m : Mode) (s : State) : State :=
  sendNibble (splitSecond s.nib v) m (sendNibble (splitFirst s.nib v) m s)

/-- LatchWrite (R84): one frame, no enable pulse. -/
def latchWrite (x : Byte) (s : State) : State :=
  busStop (busWriteFrame x (busWriteAddr s.addr (busStart s)))

/-- The Data bytes of a list, in order. -/
def sendDataBytes : List Byte → State → State
  | [], s => s
  | b :: bs, s => sendDataBytes bs (sendByte b .data s)

/-- The rows of a glyph from a Command byte on: for each row its address, then its bitmap row, raw (R113). -/
def sendGlyphRows : List Byte → Byte → State → State
  | [], _, s => s
  | row :: rows, cmd, s => sendGlyphRows rows (cmd + 1#8) (sendByte row .data (sendByte cmd .command s))

/-- `GlyphBody` (R113), used by LOADGLYPH and by INIT step 10. -/
def glyphBody (bitmap : Bitmap) (slot : Byte) (s : State) : State := sendGlyphRows bitmap.toList (cgramBase slot) s

/-- The configuration write of INIT (R90): all eight registers, before any event; `BL` and `LATCH` are not written. -/
def configure (columns rows busAddress nibbleOrder enableBit rwBit rsBit backlightBit : Byte) (s : State) : State :=
  { s with
    fsm := .powerWait
    nib := nibbleOrder.getLsbD 0
    enPos := enableBit.setWidth 3
    rwPos := rwBit.setWidth 3
    rsPos := rsBit.setWidth 3
    blPos := backlightBit.setWidth 3
    addr := busAddress.setWidth 7
    maxCol := columns - 1#8
    maxRow := rows - 1#8 }

/-- The reset event (R150, R151): every register at its value after reset; no event is issued and the trace stays. -/
def applyReset (s : State) : State := { State.reset with trace := s.trace, cmd := s.cmd, port := s.port }

/-- The acceptance of a display operation (R140): the state is checked first, then the operands. -/
def whenReady (legal : Bool) (f : State → State) (s : State) : Host.Outcome State Fault Refusal :=
  if s.fsm = .ready then
    if legal then .next (f s) else .refused .badOperand
  else .refused .notReady

/-- The host withdraws the operation it is offering (the block having refused it, R140) and may offer the next: the bytes
of one operation, or one reserved opcode byte, leave the command port. No step of the block: log entry 11. -/
def withdraw (s : State) : State :=
  match decode s.cmd with
  | .ok _ rest => { s with cmd := rest }
  | .incomplete => { s with cmd := [] }
  | .reserved _ => { s with cmd := s.cmd.drop 1 }

end Sys2Proof.Machine
end

