-- ==== Sys2Proof/Machine/DisplayControl.lean ====
section
/-! DEFINITION. The Display Control Surface (spec 42_display_control R110 to R113). -/

namespace Sys2Proof.Machine

/-- The effect of SETCURSOR (R110): one Command byte. -/
def setCursor (column row : Byte) (s : State) : State :=
  sendByte (cursorByte s.maxCol s.maxRow column row) .command s

/-- SETCURSOR (R110). -/
def execSetcursor (column row : Byte) (s : State) : Host.Outcome State Fault Refusal :=
  whenReady true (setCursor column row) s

/-- The effect of CLEARLINE (R111): the cursor to column 0 of the row, then `NCOLS + 1` spaces. -/
def clearLine (row : Byte) (s : State) : State :=
  sendDataBytes (List.replicate (clearCount s.maxCol) Config.space) (setCursor 0x00#8 row s)

/-- CLEARLINE (R111). -/
def execClearline (row : Byte) (s : State) : Host.Outcome State Fault Refusal := whenReady true (clearLine row) s

/-- The effect of SETBACKLIGHT (R112): the flag is stored, and the latch byte, its backlight bit set according to the
flag, is written bare. -/
def setBacklight (on : Byte) (s : State) : State :=
  let s1 := s.setBl (onFlag on)
  latchWrite (relight s1.latch s1.blPos s1.bl) s1

/-- SETBACKLIGHT (R112). -/
def execSetbacklight (on : Byte) (s : State) : Host.Outcome State Fault Refusal :=
  whenReady (onLegal on) (setBacklight on) s

/-- LOADGLYPH (R113). -/
def execLoadglyph (bitmap : Bitmap) (slot : Byte) (s : State) : Host.Outcome State Fault Refusal :=
  whenReady (slotLegal slot) (glyphBody bitmap slot) s

end Sys2Proof.Machine
end

