-- ==== Sys2Proof/Machine/Emission.lean ====
section
/-! DEFINITION. The emissions the block makes inside its operations: the two bus-level bytes (spec 30_encoding R50, R53)
and the logical bytes SET_CGRAM, SET_DDRAM and DATA (R55). The host cannot issue them (R70); every host operation is
made of them. -/

namespace Sys2Proof.Machine

/-- ADDRW (R53): the first WRITE of a bus transaction. The block passes `ADDR` (R31). -/
def execAddrw (a : BusAddr) (s : State) : Host.Outcome State Fault Refusal := .next (busWriteAddr a s)

/-- FRAME (R50): one WRITE of a frame, and the latch follows (R19). -/
def execFrame (f : Byte) (s : State) : Host.Outcome State Fault Refusal := .next (busWriteFrame f s)

/-- SET_CGRAM (R113, R62): one Command byte. -/
def execSetCgram (slot row : BitVec 3) (s : State) : Host.Outcome State Fault Refusal :=
  .next (sendByte (cgramByte slot row) .command s)

/-- SET_DDRAM (R110, R61): one Command byte. -/
def execSetDdram (a : BitVec 7) (s : State) : Host.Outcome State Fault Refusal :=
  .next (sendByte (ddramByte a) .command s)

/-- DATA (R55, R120): one Data byte, as given. -/
def execData (d : Byte) (s : State) : Host.Outcome State Fault Refusal := .next (sendByte d .data s)

end Sys2Proof.Machine
end

