-- ==== Sys2Proof/Machine/InitFsm.lean ====
section
/-! DEFINITION. INIT and the initialization state machine (spec 41_init_fsm R90 to R106): one function per state, their
composition, and the meanings of INIT and of the six emissions that are the actions of its states. The two OPEN
parameters are arguments here and are supplied by the meanings. -/

namespace Sys2Proof.Machine

/-- The FSM moves on when it is in the state whose action has been done, and stays otherwise (R102: the machine has no
other transition). Log entry 12. -/
def advance (src dst : Fsm) (s : State) : State := if s.fsm = src then s.setFsm dst else s

/-- The state after `EntryModeSet` (R99): the machine's only branch, on a parameter. -/
def afterEntryMode (glyphs : Bool) : Fsm := if glyphs then .glyphLoad else .ready

/-- The events of a state's action and the state after it, inside INIT (R102). -/
def fsmRow (glyphs : Bool) : Fsm → Nat × Fsm
  | .powerWait => (1, .force8BitA)
  | .force8BitA => (6, .force8BitB)
  | .force8BitB => (5, .force8BitC)
  | .force8BitC => (5, .switch4Bit)
  | .switch4Bit => (5, .functionSet)
  | .functionSet => (10, .displayOn)
  | .displayOn => (10, .clear)
  | .clear => (11, .entryModeSet)
  | .entryModeSet => (10, afterEntryMode glyphs)
  | .glyphLoad => (1280, .ready)
  | .ready => (0, .ready)

/-- The FSM state, from a state on and in at most `fuel` moves, when `done` events have completed: a state is left when
its last event has completed (R45, R91 to R101; log entry 7). -/
def fsmAfter (glyphs : Bool) : Nat → Fsm → Nat → Fsm
  | 0, f, _ => f
  | fuel + 1, f, done =>
    if f = .ready ∨ done < (fsmRow glyphs f).1 then f
    else fsmAfter glyphs fuel (fsmRow glyphs f).2 (done - (fsmRow glyphs f).1)

/-- State `PowerWait` inside INIT, step 1 (R91). -/
def actPowerWait (s : State) : State := (delayMs Config.tPowerMs s).setFsm .force8BitA

/-- The nibble of steps 2 to 4: logical 3, positioned, as Command (R92, 90_conflicts C3). -/
def sendForce8 (s : State) : State := sendNibble (posNibble s.nib Config.nibForce8) .command s

/-- FORCE8 as the state has it: with the wait in `Force8BitA` only (R92), without in `Force8BitB` and `Force8BitC`
(R93, R94); outside these three states the emission alone (log entry 12). -/
def actForce8 (s : State) : State :=
  match s.fsm with
  | .force8BitA => (delayMs Config.tForce8Ms (sendForce8 s)).setFsm .force8BitB
  | .force8BitB => (sendForce8 s).setFsm .force8BitC
  | .force8BitC => (sendForce8 s).setFsm .switch4Bit
  | _ => sendForce8 s

/-- SWITCH4, step 5 (R95): logical nibble 2, the last single nibble. -/
def actSwitch4 (s : State) : State :=
  advance .switch4Bit .functionSet (sendNibble (posNibble s.nib Config.nibSwitch4) .command s)

/-- FUNCTION_SET, step 6 (R96). -/
def actFunctionSet (s : State) : State := advance .functionSet .displayOn (sendByte Config.cmdFunctionSet .command s)

/-- DISPLAY_ON, step 7 (R97). -/
def actDisplayOn (s : State) : State := advance .displayOn .clear (sendByte Config.cmdDisplayOn .command s)

/-- CLEAR, step 8 (R98): the byte, then the wait. -/
def actClear (s : State) : State :=
  advance .clear .entryModeSet (delayMs Config.tClearMs (sendByte Config.cmdClear .command s))

/-- ENTRY_MODE, step 9 (R99). -/
def actEntryMode (glyphs : Bool) (s : State) : State :=
  advance .entryModeSet (afterEntryMode glyphs) (sendByte Config.cmdEntryMode .command s)

/-- The slots of `GLYPH_ROM`, ascending (R100). -/
def glyphSlots : List (Fin 8) := [0, 1, 2, 3, 4, 5, 6, 7]

/-- The glyph bodies of a list of slots, in order (R100). -/
def sendGlyphs (rom : Fin 8 → Bitmap) : List (Fin 8) → State → State
  | [], s => s
  | k :: ks, s => sendGlyphs rom ks (glyphBody (rom k) (BitVec.ofNat 8 k.val) s)

/-- State `GlyphLoad`, step 10 (R100). -/
def actGlyphLoad (rom : Fin 8 → Bitmap) (s : State) : State := (sendGlyphs rom glyphSlots s).setFsm .ready

/-- The machine from `PowerWait` to `Ready` (R103). -/
def runInit (glyphs : Bool) (rom : Fin 8 → Bitmap) (s : State) : State :=
  let s1 := actPowerWait s
  let s4 := actForce8 (actForce8 (actForce8 s1))
  let s9 := actEntryMode glyphs (actClear (actDisplayOn (actFunctionSet (actSwitch4 s4))))
  if glyphs then actGlyphLoad rom s9 else s9

/-- INIT for a given variant (R90, R103): accepted from `PowerWait` and from `Ready` (R140), operands checked next. -/
def initWith (glyphs : Bool) (rom : Fin 8 → Bitmap)
    (columns rows busAddress nibbleOrder enableBit rwBit rsBit backlightBit : Byte) (s : State) :
    Host.Outcome State Fault Refusal :=
  if s.fsm.idle then
    if initLegal columns rows busAddress nibbleOrder enableBit rwBit rsBit backlightBit then
      .next (runInit glyphs rom
        (configure columns rows busAddress nibbleOrder enableBit rwBit rsBit backlightBit s))
    else .refused .badOperand
  else .refused .notReady

/-- INIT (R90 to R106). -/
def execInit (columns rows busAddress nibbleOrder enableBit rwBit rsBit backlightBit : Byte) (s : State) :
    Host.Outcome State Fault Refusal :=
  initWith Config.hasGlyphs Config.glyphRom columns rows busAddress nibbleOrder enableBit rwBit rsBit backlightBit s

/-- FORCE8 (R92 to R94). -/
def execForce8 (s : State) : Host.Outcome State Fault Refusal := .next (actForce8 s)

/-- SWITCH4 (R95). -/
def execSwitch4 (s : State) : Host.Outcome State Fault Refusal := .next (actSwitch4 s)

/-- FUNCTION_SET (R96). -/
def execFunctionSet (s : State) : Host.Outcome State Fault Refusal := .next (actFunctionSet s)

/-- DISPLAY_ON (R97). -/
def execDisplayOn (s : State) : Host.Outcome State Fault Refusal := .next (actDisplayOn s)

/-- CLEAR (R98). -/
def execClear (s : State) : Host.Outcome State Fault Refusal := .next (actClear s)

/-- ENTRY_MODE (R99). -/
def execEntryMode (s : State) : Host.Outcome State Fault Refusal := .next (actEntryMode Config.hasGlyphs s)

end Sys2Proof.Machine
end

