-- ==== Sys2Proof/Machine/Text.lean ====
section
/-! DEFINITION. Text Emission (spec 43_text_emission R120 to R122). -/

namespace Sys2Proof.Machine

/-- The effect of PRINTCHAR (R120): the sanitised code as one Data byte. -/
def printChar (c : Byte) (s : State) : State := sendByte (san c) .data s

/-- PRINTCHAR (R120). -/
def execPrintchar (c : Byte) (s : State) : Host.Outcome State Fault Refusal := whenReady true (printChar c) s

/-- The effect of PRINT (R121): each character in order through PRINTCHAR. -/
def printText : List Byte → State → State
  | [], s => s
  | c :: cs, s => printText cs (printChar c s)

/-- PRINT (R121). A list that holds the terminator is no operand of it (R57, R66): log entry 15. -/
def execPrint (text : List Byte) (s : State) : Host.Outcome State Fault Refusal :=
  whenReady (textLegal text) (printText text) s

/-- The effect of PRINTCENTER (R122): the leading spaces, then PRINT. -/
def printCenter (text : List Byte) (s : State) : State :=
  printText text (sendDataBytes (List.replicate (leadSpaces s.maxCol text.length) Config.space) s)

/-- PRINTCENTER (R122). -/
def execPrintcenter (text : List Byte) (s : State) : Host.Outcome State Fault Refusal :=
  whenReady (textLegal text) (printCenter text) s

end Sys2Proof.Machine
end

