-- ==== Sys2Proof/Machine/Dispatch.lean ====
section
/-! DEFINITION. The dispatch of an instruction to its meaning, one arm per constructor. -/

namespace Sys2Proof.Machine

def exec (i : Instr) (s : State) : Host.Outcome State Fault Refusal :=
  match i with
  | .init columns rows busAddress nibbleOrder enableBit rwBit rsBit backlightBit => Sys2Proof.Machine.execInit columns rows busAddress nibbleOrder enableBit rwBit rsBit backlightBit s
  | .setcursor column row => Sys2Proof.Machine.execSetcursor column row s
  | .clearline row => Sys2Proof.Machine.execClearline row s
  | .setbacklight on => Sys2Proof.Machine.execSetbacklight on s
  | .loadglyph bitmap slot => Sys2Proof.Machine.execLoadglyph bitmap slot s
  | .printchar c => Sys2Proof.Machine.execPrintchar c s
  | .print text => Sys2Proof.Machine.execPrint text s
  | .printcenter text => Sys2Proof.Machine.execPrintcenter text s
  | .addrw a => Sys2Proof.Machine.execAddrw a s
  | .frame f => Sys2Proof.Machine.execFrame f s
  | .force8 => Sys2Proof.Machine.execForce8 s
  | .switch4 => Sys2Proof.Machine.execSwitch4 s
  | .functionSet => Sys2Proof.Machine.execFunctionSet s
  | .displayOn => Sys2Proof.Machine.execDisplayOn s
  | .clear => Sys2Proof.Machine.execClear s
  | .entryMode => Sys2Proof.Machine.execEntryMode s
  | .setCgram slot row => Sys2Proof.Machine.execSetCgram slot row s
  | .setDdram a => Sys2Proof.Machine.execSetDdram a s
  | .data d => Sys2Proof.Machine.execData d s

end Sys2Proof.Machine
end

