-- ==== Sys2Proof/Machine/View.lean ====
section
/-! DEFINITION. What the devices behind the ports see of a trace (spec 10_state R25, 20_memory R32, R36, R37, R40): the
frames the expander takes, the nibbles the display latches at a falling enable line, the logical bytes. All are
functions of the trace and of the pin map; none is state. -/

namespace Sys2Proof.Machine

/-- Where the Bus Transport stands inside a transaction: the first WRITE after a START is the address byte. -/
inductive BusPhase where
  | idle
  | addr
  | data
  deriving DecidableEq, Repr

/-- The phase after one event; a START begins a new transaction whatever came before (R151). -/
def BusPhase.after : BusPhase → Event → BusPhase
  | _, .start => .addr
  | .addr, .write _ => .data
  | .data, .write _ => .data
  | .idle, .write _ => .idle
  | _, .stop => .idle
  | p, .delayMs _ => p
  | p, .delayUs _ => p

/-- The frames the expander takes: every byte written after the address byte inside a transaction (R32). -/
def framesFrom : BusPhase → List Event → List Byte
  | _, [] => []
  | p, e :: es =>
    match p, e with
    | .data, .write b => b :: framesFrom .data es
    | _, _ => framesFrom (p.after e) es

/-- The frames of a whole trace. -/
def frames (es : List Event) : List Byte := framesFrom .idle es

/-- The expander's output lines after a trace; unknown before the first frame (R25, 91_not_in_source N8). -/
def expanderLines (es : List Event) : Option Byte := (frames es).getLast?

/-- The enable line falls between two successive frames (R40, R84). -/
def enableFalls (pm : PinMap) (prev cur : Byte) : Bool := prev.getLsbD pm.enPos.toNat && !cur.getLsbD pm.enPos.toNat

/-- The logical nibble a frame carries (R37, R40). -/
def nibbleOf (pm : PinMap) (f : Byte) : Nibble := if pm.nib then f.extractLsb' 4 4 else f.extractLsb' 0 4

/-- The mode a frame carries (R40). -/
def modeOf (pm : PinMap) (f : Byte) : Mode := if f.getLsbD pm.rsPos.toNat then .data else .command

/-- The nibbles the display latches from a sequence of frames, the lines before it known or not (R40, R152). -/
def latchedFrom (pm : PinMap) : Option Byte → List Byte → List (Mode × Nibble)
  | _, [] => []
  | none, f :: fs => latchedFrom pm (some f) fs
  | some prev, f :: fs =>
    if enableFalls pm prev f then (modeOf pm f, nibbleOf pm f) :: latchedFrom pm (some f) fs
    else latchedFrom pm (some f) fs

/-- The logical nibbles of some events, the expander's lines before them given (R40). -/
def logicalNibbles (pm : PinMap) (lines : Option Byte) (es : List Event) : List (Mode × Nibble) :=
  latchedFrom pm lines (frames es)

/-- Nibbles pair into bytes, the first nibble high (R36, R40); a last nibble without a partner is not yet a byte. The mode
of a byte is that of its first nibble. Where the two differ, as a reset between the cycles of a byte can make them (R152
(b)), the spec gives no mode and this is the model's choice (DESIGN CHOICE, log entry 16). -/
def pairNibbles : List (Mode × Nibble) → List (Mode × Byte)
  | (m, h) :: (_, l) :: rest => (m, h ++ l) :: pairNibbles rest
  | _ => []

/-- The logical bytes of some events that begin at a byte boundary, `C:xx` and `D:xx` of the spec (R40). -/
def logicalBytes (pm : PinMap) (lines : Option Byte) (es : List Event) : List (Mode × Byte) :=
  pairNibbles (logicalNibbles pm lines es)

end Sys2Proof.Machine
end

