-- ==== Sys2Proof/Machine/Ports.lean ====
section
/-! DEFINITION. The ports (spec 70_reset_and_hazards R153): what an event looks like on the output ports, when the command
port is ready, and how the environment's inputs meet the events of an operation one by one (40_transfer_primitives
R85, 70_reset_and_hazards R151). -/

namespace Sys2Proof.Machine

/-- `bus_kind` (R153). -/
inductive BusKind where
  | start
  | write
  | stop
  deriving DecidableEq, Repr

/-- `dly_unit` (R153). -/
inductive DelayUnit where
  | milliseconds
  | microseconds
  deriving DecidableEq, Repr

/-- A request of the block at one of its two output ports (R153): `bus_req` with `bus_kind` and `bus_data`, or `dly_req`
with `dly_unit` and `dly_n`. -/
inductive PortOut where
  | busReq (kind : BusKind) (data : Byte)
  | dlyReq (unit : DelayUnit) (n : Byte)
  deriving DecidableEq, Repr

/-- The request an event is on the ports; `bus_data` has no meaning for START and STOP and is shown as 0. -/
def Event.toPort : Event → PortOut
  | .start => .busReq .start 0x00#8
  | .write b => .busReq .write b
  | .stop => .busReq .stop 0x00#8
  | .delayMs n => .dlyReq .milliseconds (BitVec.ofNat 8 n)
  | .delayUs n => .dlyReq .microseconds (BitVec.ofNat 8 n)

/-- `cmd_ready` (R153): the block is between operations, so it is in no state of a running INIT (R140) and waits for no
port event. -/
def State.cmdReady (s : State) : Bool := s.fsm.idle && !s.waiting

/-- How the ports carry `n` events, the inputs next first. -/
inductive Carried where
  /-- All events complete; the inputs that are left. -/
  | all (rest : List PortIn)
  /-- A reset arrives when `k` of the events have been issued. -/
  | cut (k : Nat) (rest : List PortIn)
  /-- The `k`-th of the events never completes. -/
  | hung (k : Nat) (rest : List PortIn)
  deriving DecidableEq, Repr

/-- One more event has been issued before. -/
def Carried.after : Carried → Carried
  | .all rest => .all rest
  | .cut k rest => .cut (k + 1) rest
  | .hung k rest => .hung (k + 1) rest

/-- The events meet the inputs one by one (R85): each completes, whatever its acknowledge (R133); or `rst` comes before
it is issued and wins (R151); or it is issued and never completes. -/
def carry : Nat → List PortIn → Carried
  | 0, ins => .all ins
  | _ + 1, [] => .all []
  | n + 1, .done _ :: ins => (carry n ins).after
  | _ + 1, .reset :: ins => .cut 0 ins
  | _ + 1, .hang :: ins => .hung 1 ins

/-- The block stuck at the `k`-th event of the operation that would take it from `s` to `t` (R85): the events up to that
one are issued, the latch holds the last frame among them, written with its event (R19), the FSM, which began the
operation in `start`, is where the completed events have brought it, and what the operation writes before its first
event (R90, R112) is written. -/
def stuckAt (start : Fsm) (s t : State) (k : Nat) : State :=
  let issued := (t.trace.drop s.trace.length).take k
  { t with
    latch := (frames issued).getLast?.getD s.latch
    fsm := fsmAfter Config.hasGlyphs 11 start (k - 1)
    waiting := true
    trace := s.trace ++ issued }

/-- The operation that took the block from `s` to `t`, begun in FSM state `start`, meets the ports: it completes; or a
reset cuts it after some of its events (the registers are reset, the events already issued stay, R151); or the block is
stuck at one of them (R85). -/
def settle (start : Fsm) (s t : State) : State :=
  match carry (t.trace.length - s.trace.length) s.port with
  | .all rest => { t with port := rest }
  | .cut k rest => { applyReset t with trace := t.trace.take (s.trace.length + k), port := rest }
  | .hung k rest => { stuckAt start s t k with port := rest }

/-- An instruction's outcome, carried over the ports; a refusal changes nothing (R140). -/
def settleOutcome (start : Fsm) (s : State) : Host.Outcome State Fault Refusal → Host.Outcome State Fault Refusal
  | .next t => .next (settle start s t)
  | .fault f => .fault f
  | .refused r => .refused r

end Sys2Proof.Machine
end

