-- ==== Sys2Proof/Machine/Sequencer.lean ====
section
/-! DEFINITION. What the sequencer does next (spec 10_state R20, 41_init_fsm R102, 60_exceptions R140): inside INIT the
action of the FSM state; between operations the next operation of the command port. -/

namespace Sys2Proof.Machine

/-- The action of the FSM state of a running INIT: for six kinds of state the emission of the same name, for `GlyphLoad`
the eight glyph bodies; none in the two idle states (R92 to R102). -/
def fsmAction (s : State) : Option (Host.Outcome State Fault Refusal) :=
  match s.fsm with
  | .powerWait => none
  | .force8BitA => some (exec .force8 s)
  | .force8BitB => some (exec .force8 s)
  | .force8BitC => some (exec .force8 s)
  | .switch4Bit => some (exec .switch4 s)
  | .functionSet => some (exec .functionSet s)
  | .displayOn => some (exec .displayOn s)
  | .clear => some (exec .clear s)
  | .entryModeSet => some (exec .entryMode s)
  | .glyphLoad => some (.next (actGlyphLoad Config.glyphRom s))
  | .ready => none

/-- The FSM state in which an accepted operation issues its first event: INIT writes `PowerWait` (R90). -/
def startFsm (f : Fsm) : Instr → Fsm
  | .init _ _ _ _ _ _ _ _ => .powerWait
  | _ => f

/-- The next operation of the command port (R56, R140): a reserved opcode is refused (R65); with no complete operation
offered the block rests (R91, R102). -/
def runCommand (s : State) : Host.Outcome State Fault Refusal :=
  match decode s.cmd with
  | .ok i rest => settleOutcome (startFsm s.fsm i) s (exec i { s with cmd := rest })
  | .incomplete => .next s
  | .reserved b => .refused (.reservedOpcode b)

/-- One step: a reset at the port wins (R151); a block stuck at an event stays so, whatever else comes (R85; log entry
9); a running INIT goes on by its FSM state and takes no command (R140); otherwise the next operation runs whole. -/
def stepBlock (s : State) : Host.Outcome State Fault Refusal :=
  match s.port with
  | .reset :: ins => .next (applyReset { s with port := ins })
  | _ =>
    if s.waiting then .next { s with port := s.port.drop 1 }
    else
      match fsmAction s with
      | some o => settleOutcome s.fsm s o
      | none => runCommand s

/-- A table word is offered on the command port, with no port input pending, no wait, and the machine in `Ready`, the one
state that accepts every operation (R140): log entry 13. -/
def offerWord (s : State) (nbits w : Nat) : State :=
  { s with
    cmd := tableBytes nbits w
    port := []
    fsm := .ready
    waiting := false }

end Sys2Proof.Machine
end

