-- ==== Sys2Proof/Machine/Step.lean ====
section
/-! DEFINITION. One step of the machine, and how a table word is placed where a step fetches. -/

namespace Sys2Proof.Machine

/-- One step (spec 10_state R20, 60_exceptions R140, 70_reset_and_hazards R151): `stepBlock`. -/
def step (s : State) : Host.Outcome State Fault Refusal := stepBlock s

/-- The state with a table word offered on the command port (log entry 13): `offerWord`. -/
def State.withFetchWord (s : State) (nbits w : Nat) : State := offerWord s nbits w

end Sys2Proof.Machine
end

