-- ==== Sys2Proof/Machine/Display.lean ====
section
/-! DEFINITION. A shadow of the display controller's address counter (spec 10_state R25(c), 20_memory R34, R35, R42, R43):
where the Data bytes of a list of logical bytes land. The controller is outside the block (00_scope R4); the block
keeps no copy of this and no rule reads it. Log entry 17. -/

namespace Sys2Proof.Machine

/-- The two memories of the display controller (R34). -/
inductive Ram where
  | ddram
  | cgram
  deriving DecidableEq, Repr

/-- Where the controller's next Data byte goes: the memory, and the address in it where it is known. -/
structure Cursor where
  ram : Ram
  addr : Option (BitVec 7)
  deriving DecidableEq, Repr

/-- A Data byte stored by the controller: the memory, and the address in it where it is known. -/
structure Landing where
  ram : Ram
  addr : Option (BitVec 7)
  value : Byte
  deriving DecidableEq, Repr

/-- The last address of each memory. -/
def Ram.top : Ram → BitVec 7
  | .ddram => 0x7F#7
  | .cgram => 0x3F#7

/-- The address advances by one after a Data write (R35); past the last address it wraps as the controller does, which the
spec does not give, so it is unknown from there on. The memory stays the one the last command selected (R34, R113 corner
case 4, R168). -/
def Cursor.next (c : Cursor) : Cursor := { c with addr := c.addr.bind fun a => if a = c.ram.top then none else some (a + 1#7) }

/-- What a Command byte does to the address (R34, R42, R43); the clear command leaves DDRAM address 0 (R168). -/
def commandCursor (cur : Option Cursor) (b : Byte) : Option Cursor :=
  match decodeCmd b [] with
  | .ok (.setDdram a) _ => some { ram := .ddram, addr := some a }
  | .ok (.setCgram slot row) _ => some { ram := .cgram, addr := some (0#1 ++ slot ++ row) }
  | .ok .clear _ => some { ram := .ddram, addr := some 0#7 }
  | .ok _ _ => cur
  | _ => none

/-- The address after some logical bytes; none where not even the memory is known. -/
def cursorAfter : Option Cursor → List (Mode × Byte) → Option Cursor
  | cur, [] => cur
  | cur, (.command, b) :: bs => cursorAfter (commandCursor cur b) bs
  | none, (.data, _) :: bs => cursorAfter none bs
  | some c, (.data, _) :: bs => cursorAfter (some c.next) bs

/-- Where the Data bytes land; one that comes while the memory is unknown is not listed. -/
def landings : Option Cursor → List (Mode × Byte) → List Landing
  | _, [] => []
  | cur, (.command, b) :: bs => landings (commandCursor cur b) bs
  | none, (.data, _) :: bs => landings none bs
  | some c, (.data, v) :: bs => { ram := c.ram, addr := c.addr, value := v } :: landings (some c.next) bs

end Sys2Proof.Machine
end

