-- ==== Sys2Proof/Safety.lean ====
section
/-! DEFINITION. The vocabulary of the claims: the spec's compact trace notation (00_scope section 4), the event lists of
the operations, the shape of a trace and the invariants that hold between operations (10_state R26), and what a quiet
environment is (70_reset_and_hazards R159). -/

namespace Sys2Proof.Machine

/-- `N(hi,lo)`: one enable cycle behind the address byte `a`. -/
def enableCycle (a hi lo : Byte) : List Event := [.start, .write a, .write hi, .write lo, .stop]

/-- `B(x)`: one bare latch write behind the address byte `a`. -/
def bareWrite (a x : Byte) : List Event := [.start, .write a, .write x, .stop]

/-- What a transfer reads of the registers: the pin map, the flag and the address. -/
structure Wiring where
  pins : PinMap
  bl : Bool
  addr : BusAddr
  deriving DecidableEq, Repr

/-- The wiring the registers hold. -/
def State.wiring (s : State) : Wiring := { pins := s.pins, bl := s.bl, addr := s.addr }

/-- The events of `SendNibble(p, m)` (R80). -/
def nibbleEvents (w : Wiring) (p : Byte) (m : Mode) : List Event :=
  enableCycle (addrwByte w.addr) (frameHi w.pins w.bl p m) (frameLo w.pins w.bl p m)

/-- The events of `SendByte(v, m)`, written from the logical nibbles `v[7:4]` then `v[3:0]` (R82). -/
def byteEvents (w : Wiring) (v : Byte) (m : Mode) : List Event :=
  nibbleEvents w (posNibble w.pins.nib (v.extractLsb' 4 4)) m ++ nibbleEvents w (posNibble w.pins.nib (v.extractLsb' 0 4)) m

/-- The last frame of `SendByte(v, m)`: the latch after it (R82). -/
def byteLatch (w : Wiring) (v : Byte) (m : Mode) : Byte :=
  frameLo w.pins w.bl (posNibble w.pins.nib (v.extractLsb' 0 4)) m

/-- The events of a list of logical bytes. -/
def bytesEvents (w : Wiring) (bs : List (Mode × Byte)) : List Event := bs.flatMap fun b => byteEvents w b.2 b.1

/-- The latch after a list of logical bytes: unchanged by none. -/
def bytesLatch (w : Wiring) (before : Byte) (bs : List (Mode × Byte)) : Byte :=
  match bs.getLast? with
  | some b => byteLatch w b.2 b.1
  | none => before

/-- The state after a list of logical bytes has been sent: the latch and the trace, nothing else. -/
def State.afterBytes (s : State) (bs : List (Mode × Byte)) : State :=
  { s with latch := bytesLatch s.wiring s.latch bs, trace := s.trace ++ bytesEvents s.wiring bs }

/-- The logical bytes of a glyph (R113): for each row its CGRAM address command and its bitmap row. -/
def glyphBytes (bitmap : Bitmap) (slot : Byte) : List (Mode × Byte) :=
  (List.finRange 8).flatMap fun r =>
    [(.command, (slot <<< 3 ||| Config.opSetCgram) + BitVec.ofNat 8 r.val), (.data, bitmap.get r)]

/-- The logical bytes of INIT step 10 (R100): the eight slots, ascending. -/
def romBytes : List (Mode × Byte) :=
  (List.finRange 8).flatMap fun k => glyphBytes (Config.glyphRom k) (BitVec.ofNat 8 k.val)

/-- The events of a logical Command nibble, positioned (R92, R95). -/
def commandNibble (w : Wiring) (n : Nibble) : List Event := nibbleEvents w (posNibble w.pins.nib n) .command

/-- The logical bytes INIT sends after step 5 (R96 to R100). -/
def initBytes : List (Mode × Byte) :=
  [(.command, Config.cmdFunctionSet), (.command, Config.cmdDisplayOn), (.command, Config.cmdClear),
    (.command, Config.cmdEntryMode)] ++ (if Config.hasGlyphs then romBytes else [])

/-- The whole event list of INIT (R103), for the wiring its operands give. -/
def initEvents (w : Wiring) : List Event :=
  [.delayMs 15] ++ commandNibble w 3#4 ++ [.delayMs 5] ++ commandNibble w 3#4 ++ commandNibble w 3#4
    ++ commandNibble w 2#4
    ++ bytesEvents w [(.command, Config.cmdFunctionSet), (.command, Config.cmdDisplayOn), (.command, Config.cmdClear)]
    ++ [.delayMs 2] ++ bytesEvents w [(.command, Config.cmdEntryMode)]
    ++ (if Config.hasGlyphs then bytesEvents w romBytes else [])

/-- The shape of a trace (R26 item 5): waits and transactions of three or two writes, each closed, the first write the
address byte `a`. -/
def shaped (a : Byte) : List Event → Bool
  | [] => true
  | .delayMs _ :: es => shaped a es
  | .start :: .write b :: .write _ :: .write _ :: .stop :: es => b == a && shaped a es
  | .start :: .write b :: .write _ :: .stop :: es => b == a && shaped a es
  | _ => false

/-- The waits of some events, in order. -/
def delaysOf : List Event → List Nat
  | [] => []
  | .delayMs n :: es => n :: delaysOf es
  | _ :: es => delaysOf es

/-- No reset and no hanging event among the inputs: the collaborators do their duty (R159). -/
def quiet (ins : List PortIn) : Bool :=
  ins.all fun p => match p with
    | .done _ => true
    | .reset => false
    | .hang => false

/-- Two lists of inputs that differ in acknowledge bits only (R133). -/
def sameButAcks : List PortIn → List PortIn → Bool
  | [], [] => true
  | .done _ :: a, .done _ :: b => sameButAcks a b
  | .reset :: a, .reset :: b => sameButAcks a b
  | .hang :: a, .hang :: b => sameButAcks a b
  | _, _ => false

/-- A position inside the half of the frame that holds the data (R50, R59). -/
def PinMap.onDataLine (pm : PinMap) (p : Pos) : Bool := (dataMask pm.nib).getLsbD p.toNat

/-- The four control positions distinct and inside the control half (R83). -/
abbrev PinMap.sane (pm : PinMap) : Prop :=
  pm.enPos ≠ pm.rwPos ∧ pm.enPos ≠ pm.rsPos ∧ pm.enPos ≠ pm.blPos ∧ pm.rwPos ≠ pm.rsPos ∧ pm.rwPos ≠ pm.blPos
    ∧ pm.rsPos ≠ pm.blPos ∧ pm.onDataLine pm.enPos = false ∧ pm.onDataLine pm.rwPos = false
    ∧ pm.onDataLine pm.rsPos = false ∧ pm.onDataLine pm.blPos = false

/-- `BL_POS` differs from `EN_POS`, from `RS_POS` and from the data-line positions (R26 item 4, R114). -/
abbrev PinMap.backlightApart (pm : PinMap) : Prop :=
  pm.blPos ≠ pm.enPos ∧ pm.blPos ≠ pm.rsPos ∧ pm.onDataLine pm.blPos = false

/-- What holds between operations (R26 items 1 to 4): the machine rests; once `Ready`, the row index is in the table's
range, the latch is the last frame written, its enable bit is low unless the backlight shares the position and is on,
and its backlight bit is the flag where the position is apart. Of a block stuck in mid-operation (R85) it says the range
of the geometry. -/
abbrev Inv (s : State) : Prop :=
  (s.waiting = false → s.fsm.idle = true)
    ∧ (s.waiting = true ∨ s.fsm = .ready → s.maxRow.toNat ≤ 3 ∧ s.maxCol.toNat ≤ 254)
    ∧ (s.waiting = false → s.fsm = .ready →
      expanderLines s.trace = some s.latch
        ∧ (s.latch.getLsbD s.enPos.toNat = true → s.blPos = s.enPos ∧ s.bl = true)
        ∧ (s.pins.backlightApart → s.latch.getLsbD s.blPos.toNat = s.bl))

/-- The registers only INIT and reset write (R21). -/
def State.config (s : State) : PinMap × BusAddr × Byte × Byte := (s.pins, s.addr, s.maxCol, s.maxRow)

/-- A safe step: it is not refused, and it leaves the block stuck at no event. -/
def stepsOn (s : State) : Bool :=
  match step s with
  | .next t => !t.waiting
  | .fault _ => false
  | .refused _ => false

/-- The operands of one INIT (R57). -/
structure InitOperands where
  columns : Byte
  rows : Byte
  busAddress : Byte
  nibbleOrder : Byte
  enableBit : Byte
  rwBit : Byte
  rsBit : Byte
  backlightBit : Byte
  deriving DecidableEq, Repr

/-- The instruction with these operands. -/
def InitOperands.instr (o : InitOperands) : Instr :=
  .init o.columns o.rows o.busAddress o.nibbleOrder o.enableBit o.rwBit o.rsBit o.backlightBit

/-- The legal operand values of INIT, as the table of R57 gives them. -/
abbrev InitOperands.legal (o : InitOperands) : Prop :=
  (1 ≤ o.columns.toNat ∧ o.columns.toNat ≤ 255) ∧ (1 ≤ o.rows.toNat ∧ o.rows.toNat ≤ 4) ∧ o.busAddress.toNat ≤ 0x7F
    ∧ (o.nibbleOrder = 0#8 ∨ o.nibbleOrder = 1#8) ∧ o.enableBit.toNat ≤ 7 ∧ o.rwBit.toNat ≤ 7 ∧ o.rsBit.toNat ≤ 7
    ∧ o.backlightBit.toNat ≤ 7

/-- The pin map the operands give (R90). -/
def InitOperands.pins (o : InitOperands) : PinMap :=
  { nib := decide (o.nibbleOrder = 1#8), enPos := BitVec.ofNat 3 o.enableBit.toNat, rwPos := BitVec.ofNat 3 o.rwBit.toNat
    rsPos := BitVec.ofNat 3 o.rsBit.toNat, blPos := BitVec.ofNat 3 o.backlightBit.toNat }

/-- The wiring INIT runs with: the operands' pin map and address, and the flag as it was (R28, R90). -/
def InitOperands.wiring (o : InitOperands) (bl : Bool) : Wiring :=
  { pins := o.pins, bl := bl, addr := BitVec.ofNat 7 o.busAddress.toNat }

/-- The state after the configuration write and the power wait of an accepted INIT (R90, R91). -/
def State.afterPowerWait (s : State) (o : InitOperands) : State :=
  { s with
    nib := o.pins.nib, enPos := o.pins.enPos, rwPos := o.pins.rwPos, rsPos := o.pins.rsPos, blPos := o.pins.blPos
    addr := BitVec.ofNat 7 o.busAddress.toNat, maxCol := BitVec.ofNat 8 (o.columns.toNat - 1)
    maxRow := BitVec.ofNat 8 (o.rows.toNat - 1), fsm := .force8BitA, trace := s.trace ++ [.delayMs 15] }

/-- The state after a whole INIT (R90, R103): the configuration its operands give, `FSM = Ready`, the latch the last
frame, the event list of R103 appended; `BL` as it was. -/
def State.afterInit (s : State) (o : InitOperands) : State :=
  { s.afterPowerWait o with
    fsm := .ready, latch := bytesLatch (o.wiring s.bl) 0x00#8 initBytes, trace := s.trace ++ initEvents (o.wiring s.bl) }

/-- The emission that is the action of an FSM state of a running INIT (R92 to R99). -/
def Fsm.emission : Fsm → Option Instr
  | .force8BitA => some .force8
  | .force8BitB => some .force8
  | .force8BitC => some .force8
  | .switch4Bit => some .switch4
  | .functionSet => some .functionSet
  | .displayOn => some .displayOn
  | .clear => some .clear
  | .entryModeSet => some .entryMode
  | .powerWait => none
  | .glyphLoad => none
  | .ready => none

/-- The instruction is an INIT. -/
def isInit : Instr → Bool
  | .init _ _ _ _ _ _ _ _ => true
  | _ => false

/-- The instruction is a SETBACKLIGHT. -/
def isSetBacklight : Instr → Bool
  | .setbacklight _ => true
  | _ => false

/-- The FSM states that accept a host operation: for INIT the two idle ones, for every other one `Ready` (R140). -/
def acceptedIn (i : Instr) (f : Fsm) : Bool := if isInit i then f.idle else f == .ready

/-- A function of the next state, a fault or a refusal as it is. -/
def mapNext (g : State → State) : Host.Outcome State Fault Refusal → Host.Outcome State Fault Refusal
  | .next t => .next (g t)
  | .fault f => .fault f
  | .refused r => .refused r

/-- Several instructions in order, stopping at the first that does not complete. -/
def execAll : List Instr → State → Host.Outcome State Fault Refusal
  | [], s => .next s
  | i :: is, s =>
    match exec i s with
    | .next t => execAll is t
    | .fault f => .fault f
    | .refused r => .refused r

/-- Two outcomes that differ in the acknowledge bits still to come only. -/
def sameOutcomeButAcks : Host.Outcome State Fault Refusal → Host.Outcome State Fault Refusal → Prop
  | .next t, .next u => { t with port := u.port } = u ∧ sameButAcks t.port u.port = true
  | .fault f, .fault g => f = g
  | .refused q, .refused r => q = r
  | _, _ => False

/-- Inputs that complete events, with the given acknowledges. -/
def dones (acks : List Bool) : List PortIn := acks.map .done

/-- The FSM state of a running INIT of which `done` events, not all, have completed: the sums of the event column of R102. -/
def initFsmAfter (done : Nat) : Fsm :=
  if done < 1 then .powerWait else if done < 7 then .force8BitA else if done < 12 then .force8BitB
  else if done < 17 then .force8BitC else if done < 22 then .switch4Bit else if done < 32 then .functionSet
  else if done < 42 then .displayOn else if done < 53 then .clear else if done < 63 then .entryModeSet else .glyphLoad

/-- No reset is asserted at this moment. -/
def noReset (ins : List PortIn) : Bool :=
  match ins with
  | .reset :: _ => false
  | _ => true

/-- `ROWOFF[r]` for a row of the table (R22). -/
def rowBase (r : Nat) : Nat := [0x00, 0x40, 0x14, 0x54].getD r 0

end Sys2Proof.Machine
end

