-- ==== Sys2Proof/Certificates/Slice0/Obligations.lean ====
section
/-! DEFINITION. The statements for the provers, from the numbered rules of the spec. -/

open Sys2Proof Sys2Proof.Machine

/-! ### Encodings -/

/-- Decoding the bytes of a legal instruction in its own format gives it back, whatever follows. The host format is the
spec's own decision D20; the ADDRW layout, the four command bytes and the terminator are log entries 4, 3 and 5. -/
def Obligations.DecodeOfEncode : Prop :=
  ∀ (i : Instr) (rest : List Byte), i.wellFormed = true → decodeAs i.format (encode i ++ rest) = .ok i rest

/-- The other direction: what a decoder reads is the encoding of what it answers, in the format it reads, so no bit is
dropped. The host format is the spec's own decision D20; for ADDRW, the command bytes and the terminator see log entries
4, 3 and 5. -/
def Obligations.EncodeOfDecode : Prop :=
  ∀ (f : Format) (bs rest : List Byte) (i : Instr), decodeAs f bs = .ok i rest → i.format = f ∧ bs = encode i ++ rest

/-- R65 (the spec's own decision D20): opcode bytes 0x00 and 0x09 to 0xFF, and no other, select no operation; a step that
meets one is refused. -/
def Obligations.ReservedOpcodesRefused : Prop :=
  ∀ (op : Byte) (bs : List Byte),
    (decode (op :: bs) = .reserved op ↔ op.toNat = 0 ∨ 9 ≤ op.toNat)
    ∧ ∀ s : State, s.cmdReady = true → noReset s.port = true → s.cmd = op :: bs → (op.toNat = 0 ∨ 9 ≤ op.toNat) →
        step s = .refused (.reservedOpcode op)

/-- R56, R53, R54, R55: one word written out per format, and the host bytes of programs P1 to P3
(the spec's own decision D20 for the host format; log entries 3 and 4 for the emitted bytes). -/
def Obligations.SpecWordsDecode : Prop :=
  decode [0x01#8, 0x10#8, 0x02#8, 0x27#8, 0x01#8, 0x02#8, 0x01#8, 0x00#8, 0x03#8]
      = .ok (.init 16#8 2#8 0x27#8 1#8 2#8 1#8 0#8 3#8) []
  ∧ decode [0x07#8, 0x48#8, 0x69#8, 0x00#8] = .ok (.print [0x48#8, 0x69#8]) []
  ∧ decode [0x05#8, 0x0E#8, 0x11#8, 0x11#8, 0x1F#8, 0x11#8, 0x11#8, 0x11#8, 0x00#8, 0x03#8]
      = .ok (.loadglyph #v[0x0E#8, 0x11#8, 0x11#8, 0x1F#8, 0x11#8, 0x11#8, 0x11#8, 0x00#8] 3#8) []
  ∧ decodeAs .addrw [0b01001110#8] = .ok (.addrw 0x27#7) []
  ∧ decodeAs .lcdNib [0b00000011#8] = .ok .force8 []
  ∧ decodeAs .lcdCmd [0b00101000#8] = .ok .functionSet []
  ∧ decodeAs .lcdCmd [0b01011101#8] = .ok (.setCgram 3#3 5#3) []
  ∧ decodeAs .lcdCmd [0b11001111#8] = .ok (.setDdram 0x4F#7) []

/-! ### The step -/

/-- R140, R153: between operations, in a quiet environment, a step takes the operation the command bytes decode to, runs
its meaning whole, and consumes its bytes and one port input per event; a refused one is the step's refusal. How the
environment is written down (`cmd`, `port`, one step per operation) is the model's choice: log entries 8, 9, 10, 11. -/
def Obligations.StepRunsDecodedOperation : Prop :=
  ∀ (s : State) (i : Instr) (rest : List Byte), s.cmdReady = true → quiet s.port = true → decode s.cmd = .ok i rest →
    (∀ t, exec i { s with cmd := rest } = .next t →
      step s = .next { t with port := s.port.drop (t.trace.length - s.trace.length) })
    ∧ (∀ r, exec i { s with cmd := rest } = .refused r → step s = .refused r)

/-- R92 to R99, R102: inside INIT a step runs the emission of the FSM state, whatever the command port offers (that a step
can begin there is the model's reading: log entry 18). -/
def Obligations.StepRunsFsmEmission : Prop :=
  ∀ (s t : State) (i : Instr), s.waiting = false → s.fsm.emission = some i → quiet s.port = true →
    exec i s = .next t → step s = .next { t with port := s.port.drop (t.trace.length - s.trace.length) }

/-- R91, R102: between operations with no complete operation offered the block does nothing. That an operation some of
whose bytes are missing waits whole is the model's choice: log entry 10. -/
def Obligations.IdleBlockRests : Prop :=
  ∀ s : State, s.cmdReady = true → noReset s.port = true → decode s.cmd = .incomplete → step s = .next s

/-- R140: while INIT is running, or the block is stuck at an event, the command port is not read: other command bytes
change nothing but themselves.
The port is the spec's own decision D7; the byte list is log entry 10. -/
def Obligations.CommandNotReadDuringInit : Prop :=
  ∀ (s : State) (cmd' : List Byte), s.cmdReady = false →
    step { s with cmd := cmd' } = mapNext (fun t => { t with cmd := cmd' }) (step s)

/-- R133, R86: the acknowledge bits change nothing: the same outcome, registers and trace for all of them. -/
def Obligations.AcknowledgeIgnored : Prop :=
  ∀ (s : State) (ins ins' : List PortIn), sameButAcks ins ins' = true →
    sameOutcomeButAcks (step { s with port := ins }) (step { s with port := ins' })

/-- R85: the block gets stuck only by a hanging event, and a stuck block issues nothing more: it passes over every input
but a reset (which `ResetWins` is about). How the inputs are written down is the model's choice: log entry 9. -/
def Obligations.StuckOnlyByHangingEvent : Prop :=
  (∀ s t : State, s.waiting = false → step s = .next t → t.waiting = true → .hang ∈ s.port)
  ∧ ∀ s : State, s.waiting = true → noReset s.port = true → step s = .next { s with port := s.port.drop 1 }

/-- R85, R45, R19, R102: the state in which an operation is stuck at an event: the events up to that one are issued, the
latch holds the last frame among them, the configuration and the flag are as the operation leaves them, the FSM is where
the completed events have brought it. That the hanging event counts as issued is log entry 7. -/
def Obligations.StuckState : Prop :=
  ∀ (s t : State) (i : Instr) (rest : List Byte) (acks : List Bool) (ins : List PortIn),
    s.cmdReady = true → decode s.cmd = .ok i rest → exec i { s with cmd := rest } = .next t →
    acks.length < t.trace.length - s.trace.length → s.port = dones acks ++ .hang :: ins →
    ∃ u, step s = .next u ∧ u.waiting = true
      ∧ u.trace = t.trace.take (s.trace.length + (acks.length + 1))
      ∧ u.latch = (frames (u.trace.drop s.trace.length)).getLast?.getD s.latch
      ∧ u.config = t.config ∧ u.bl = t.bl ∧ u.cmd = rest ∧ u.port = ins
      ∧ u.fsm = if isInit i then initFsmAfter acks.length else s.fsm

/-! ### Reset -/

/-- R27: the values the spec gives after reset, its own decision D5. -/
def Obligations.ResetRegisterValues : Prop :=
  State.reset.fsm = .powerWait ∧ State.reset.bl = false ∧ State.reset.latch = 0x00#8 ∧ State.reset.trace = []

/-- R150: a reset at the port wins over any step; FSM, BL and LATCH take their reset values, no event is issued, and the
trace stays (the spec's own decisions D5, D21; the order at the port is log entry 19). -/
def Obligations.ResetWins : Prop :=
  ∀ (s : State) (ins : List PortIn), s.port = .reset :: ins →
    ∃ t, step s = .next t ∧ t.fsm = .powerWait ∧ t.bl = false ∧ t.latch = 0x00#8 ∧ t.waiting = false ∧ t.trace = s.trace
      ∧ t.port = ins

/-- R151: a reset that arrives when some events of an operation have completed, or while the block waits for one that does
not: the registers are reset, the issued events stay, the hanging one among them, the others are never issued, the open
transaction is not closed. The reset is the spec's own decision D21; the whole next state is the model's: the
configuration registers at 0 are log entry 6, the hanging event log entry 7, the rest log entries 8, 9 and 10. -/
def Obligations.ResetCutsOperation : Prop :=
  ∀ (s t : State) (i : Instr) (rest : List Byte) (ack : Bool) (acks : List Bool) (ins : List PortIn),
    s.cmdReady = true → decode s.cmd = .ok i rest → exec i { s with cmd := rest } = .next t →
    (acks.length + 1 < t.trace.length - s.trace.length → s.port = dones (ack :: acks) ++ .reset :: ins →
      step s = .next { State.reset with
        trace := t.trace.take (s.trace.length + (acks.length + 1)), cmd := rest, port := ins })
    ∧ (acks.length < t.trace.length - s.trace.length → s.port = dones acks ++ .hang :: .reset :: ins →
      Sys2Proof.core.run 2 s = .next { State.reset with
        trace := t.trace.take (s.trace.length + (acks.length + 1)), cmd := rest, port := ins })

/-- R27, 93_implementation_defined U12: before the first INIT no operation's outcome depends on the configuration
registers, which reset leaves unspecified (the spec marks this as its own inference; log entry 6). -/
def Obligations.ConfigUnreadBeforeInit : Prop :=
  ∀ (s s' : State) (i : Instr), i.format = .host → s.fsm = .powerWait →
    s' = { s with nib := s'.nib, enPos := s'.enPos, rwPos := s'.rwPos, rsPos := s'.rsPos, blPos := s'.blPos,
                  addr := s'.addr, maxCol := s'.maxCol, maxRow := s'.maxRow } →
    match exec i s, exec i s' with
    | .next t, .next t' => t = t'
    | .refused r, .refused r' => r = r'
    | _, _ => False

/-! ### The primitives -/

/-- R80: SendNibble's two frames, its five events, and the latch. The address byte's layout is log entry 4; that both
frames are stored in the latch is the spec's own decision D22. -/
def Obligations.SendNibbleEffect : Prop :=
  ∀ (p : Byte) (m : Mode) (s : State),
    ∃ out hi lo : Byte,
      out = (p &&& (if s.nib then 0xF0#8 else 0x0F#8)) ||| (if m = .data then bit s.rsPos else 0#8)
          ||| (if s.bl then bit s.blPos else 0#8)
      ∧ hi = out ||| bit s.enPos ∧ lo = out &&& ~~~(bit s.enPos)
      ∧ sendNibble p m s = { s with
          latch := lo
          trace := s.trace ++ [.start, .write (s.addr.setWidth 8 <<< 1), .write hi, .write lo, .stop] }

/-- R50, R52, R80: every bit of the two frames, colliding positions included. -/
def Obligations.FrameBits : Prop :=
  ∀ (pm : PinMap) (bl : Bool) (p : Byte) (m : Mode) (k : Fin 8),
    let held := (pm.onDataLine (BitVec.ofNat 3 k.val) && p.getLsbD k.val) || (decide (m = .data) && decide (k.val = pm.rsPos.toNat))
      || (bl && decide (k.val = pm.blPos.toNat))
    (frameHi pm bl p m).getLsbD k.val = (decide (k.val = pm.enPos.toNat) || held)
    ∧ (frameLo pm bl p m).getLsbD k.val = (!decide (k.val = pm.enPos.toNat) && held)

/-- R80 corner case 3, R81: the two frames of a cycle differ, and exactly at the enable bit. -/
def Obligations.FramesDifferAtEnable : Prop :=
  ∀ (pm : PinMap) (bl : Bool) (p : Byte) (m : Mode), frameHi pm bl p m ^^^ frameLo pm bl p m = 1#8 <<< pm.enPos.toNat

/-- R13 (an inference the spec marks as its own): with the control positions distinct and inside the control half the
read/write line is low in every frame. -/
def Obligations.ReadWriteLineLow : Prop :=
  ∀ (pm : PinMap) (bl : Bool) (p : Byte) (m : Mode), pm.sane →
    (frameHi pm bl p m).getLsbD pm.rwPos.toNat = false ∧ (frameLo pm bl p m).getLsbD pm.rwPos.toNat = false

/-- R83: the recombination law: with sane positions the display takes exactly the byte, high nibble first, in the given
mode, whatever its lines were before. -/
def Obligations.RecombinationLaw : Prop :=
  ∀ (v : Byte) (m : Mode) (s : State) (lines : Option Byte), s.pins.sane →
    logicalNibbles s.pins lines ((sendByte v m s).trace.drop s.trace.length)
      = [(m, v.extractLsb' 4 4), (m, v.extractLsb' 0 4)]
    ∧ v.extractLsb' 4 4 ++ v.extractLsb' 0 4 = v

/-- R40 (an inference the spec marks as its own; log entry 16): the logical view of the events of any list of logical bytes
is that list. -/
def Obligations.LogicalViewOfBytes : Prop :=
  ∀ (w : Wiring) (bs : List (Mode × Byte)) (lines : Option Byte), w.pins.sane →
    logicalBytes w.pins lines (bytesEvents w bs) = bs

/-- R114 (its clauses are inferences the spec marks as its own): (a), (b) every frame a host operation writes carries at
`BL_POS` the flag it leaves, which SETBACKLIGHT alone changes; (c) the frames of a transfer under the two values of the
flag differ exactly there. -/
def Obligations.BacklightLaws : Prop :=
  (∀ (i : Instr) (s t : State), i.format = .host → exec i s = .next t → t.pins.backlightApart →
      (∀ f ∈ frames (t.trace.drop s.trace.length), f.getLsbD t.blPos.toNat = t.bl)
      ∧ (isSetBacklight i = false → t.bl = s.bl))
  ∧ (∀ (on : Byte) (s t : State), exec (.setbacklight on) s = .next t → t.bl = decide (on = 1#8))
  ∧ ∀ (pm : PinMap) (p : Byte) (m : Mode), pm.backlightApart →
      frameHi pm true p m ^^^ frameHi pm false p m = bit pm.blPos
      ∧ frameLo pm true p m ^^^ frameLo pm false p m = bit pm.blPos

/-! ### The emissions -/

/-- R53, R19: an address byte is one WRITE and leaves the latch; a frame is one WRITE and becomes the latch (the
layout of the address byte is log entry 4, the moment of the latch the spec's own decision D22). -/
def Obligations.BusByteEmissions : Prop :=
  ∀ s : State,
    (∀ a : BusAddr, exec (.addrw a) s = .next { s with trace := s.trace ++ [.write (BitVec.ofNat 8 (2 * a.toNat))] })
    ∧ ∀ f : Byte, exec (.frame f) s = .next { s with latch := f, trace := s.trace ++ [.write f] }

/-- R55, R61, R62: SET_CGRAM, SET_DDRAM and DATA each send their one logical byte and do nothing else. That an emission
can be run by itself is the model's choice: log entry 12. -/
def Obligations.ByteEmissions : Prop :=
  ∀ s : State,
    (∀ slot row : BitVec 3, exec (.setCgram slot row) s
        = .next (s.afterBytes [(.command, BitVec.ofNat 8 (0x40 + 8 * slot.toNat + row.toNat))]))
    ∧ (∀ a : BitVec 7, exec (.setDdram a) s = .next (s.afterBytes [(.command, BitVec.ofNat 8 (0x80 + a.toNat))]))
    ∧ ∀ d : Byte, exec (.data d) s = .next (s.afterBytes [(.data, d)])

/-- R93, R94: the second and the third force-8-bit nibble of INIT: one enable cycle of the logical nibble 3 each, no
wait, the next state. -/
def Obligations.InitNibbleRepeats : Prop :=
  ∀ (s : State),
    let lo := frameLo s.pins s.bl (posNibble s.nib 3#4) .command
    (s.fsm = .force8BitB → exec .force8 s = .next { s with
        fsm := .force8BitC, latch := lo, trace := s.trace ++ commandNibble s.wiring 3#4 })
    ∧ (s.fsm = .force8BitC → exec .force8 s = .next { s with
        fsm := .switch4Bit, latch := lo, trace := s.trace ++ commandNibble s.wiring 3#4 })

/-- R92, R95: the first force-8-bit nibble of INIT with its wait, and the switch to 4-bit mode. That the wait is exactly 5
and that the nibbles are positioned are the spec's own decisions D11 and D12. -/
def Obligations.InitFirstAndLastNibble : Prop :=
  ∀ (s : State),
    let lo := fun n : Nibble => frameLo s.pins s.bl (posNibble s.nib n) .command
    (s.fsm = .force8BitA → exec .force8 s = .next { s with
        fsm := .force8BitB, latch := lo 3#4, trace := s.trace ++ commandNibble s.wiring 3#4 ++ [.delayMs 5] })
    ∧ (s.fsm = .switch4Bit → exec .switch4 s = .next { s with
        fsm := .functionSet, latch := lo 2#4, trace := s.trace ++ commandNibble s.wiring 2#4 })

/-- R96, R97, R98, R99: the four Command bytes of INIT, each in its FSM state, with the one wait and the next state.
The values of the bytes are log entry 3; that the wait is exactly 2 is the spec's own decision D11. -/
def Obligations.InitByteSteps : Prop :=
  ∀ s : State,
    (s.fsm = .functionSet → exec .functionSet s
        = .next { s.afterBytes [(.command, Config.cmdFunctionSet)] with fsm := .displayOn })
    ∧ (s.fsm = .displayOn → exec .displayOn s
        = .next { s.afterBytes [(.command, Config.cmdDisplayOn)] with fsm := .clear })
    ∧ (s.fsm = .clear → exec .clear s = .next { s with
        fsm := .entryModeSet, latch := byteLatch s.wiring Config.cmdClear .command
        trace := s.trace ++ byteEvents s.wiring Config.cmdClear .command ++ [.delayMs 2] })
    ∧ (s.fsm = .entryModeSet → exec .entryMode s
        = .next { s.afterBytes [(.command, Config.cmdEntryMode)] with
            fsm := if Config.hasGlyphs then .glyphLoad else .ready })

/-- The model's choice (log entry 12): outside its FSM state an emission of INIT puts out its nibble or byte, CLEAR with
its wait and FORCE8 without, and leaves everything but the latch and the trace, the FSM too, as it is. -/
def Obligations.InitEmissionsOutsideTheirState : Prop :=
  ∀ s : State,
    let lo := fun n : Nibble => frameLo s.pins s.bl (posNibble s.nib n) .command
    (s.fsm.emission ≠ some .force8 → exec .force8 s = .next { s with
        latch := lo 3#4, trace := s.trace ++ commandNibble s.wiring 3#4 })
    ∧ (s.fsm.emission ≠ some .switch4 → exec .switch4 s = .next { s with
        latch := lo 2#4, trace := s.trace ++ commandNibble s.wiring 2#4 })
    ∧ (s.fsm.emission ≠ some .functionSet →
        exec .functionSet s = .next (s.afterBytes [(.command, Config.cmdFunctionSet)]))
    ∧ (s.fsm.emission ≠ some .displayOn → exec .displayOn s = .next (s.afterBytes [(.command, Config.cmdDisplayOn)]))
    ∧ (s.fsm.emission ≠ some .clear → exec .clear s = .next { s with
        latch := byteLatch s.wiring Config.cmdClear .command
        trace := s.trace ++ byteEvents s.wiring Config.cmdClear .command ++ [.delayMs 2] })
    ∧ (s.fsm.emission ≠ some .entryMode → exec .entryMode s = .next (s.afterBytes [(.command, Config.cmdEntryMode)]))

/-! ### INIT -/

/-- R90, R103, R104: an accepted INIT with legal operands: the configuration, the whole event list, `FSM = Ready`. It rests
on the spec's own decisions D10 to D13, D16, D23, D27 and on log entries 3 and 4; it holds for both values of
`HAS_GLYPHS` and every glyph table (log entries 1 and 2). -/
def Obligations.InitCompletes : Prop :=
  ∀ (o : InitOperands) (s : State), o.legal → (s.fsm = .powerWait ∨ s.fsm = .ready) →
    exec o.instr s = .next (s.afterInit o)

/-- R66, R140 (the spec's own decisions D14, D16): INIT is refused where an operand is illegal or an INIT is running; the
state is checked first. -/
def Obligations.InitRefusals : Prop :=
  ∀ (o : InitOperands) (s : State),
    (s.fsm.idle = false → exec o.instr s = .refused .notReady)
    ∧ (s.fsm.idle = true → ¬ o.legal → exec o.instr s = .refused .badOperand)

/-- R102, R160: one INIT issues 63 events, or 1343 with glyphs, and exactly three waits, 15, 5 and 2 (the exact numbers are
the spec's own decision D11). -/
def Obligations.InitEventCount : Prop :=
  ∀ (o : InitOperands) (s t : State), exec o.instr s = .next t →
    t.trace.length = s.trace.length + (if Config.hasGlyphs then 1343 else 63)
    ∧ delaysOf (t.trace.drop s.trace.length) = [15, 5, 2]

/-- R102, R103: INIT as one operation equals the machine run state by state from `Force8BitA` (log entries 8 and 18). -/
def Obligations.InitIsFsmRun : Prop :=
  ∀ (o : InitOperands) (s : State), o.legal → s.cmdReady = true → s.port = [] →
    Sys2Proof.core.run (if Config.hasGlyphs then 9 else 8) (s.afterPowerWait o) = exec o.instr s

/-! ### Display control -/

/-- R110, R61, R73: SETCURSOR sends one Command byte, `0x80` ORed with the sum, modulo 256, of the clamped column and the
base of the clamped row, and does nothing else. The sum modulo 256 is the spec's own decision D15. -/
def Obligations.SetCursorCompletes : Prop :=
  ∀ (column row : Byte) (s : State), s.fsm = .ready → s.maxRow.toNat ≤ 3 →
    exec (.setcursor column row) s = .next (s.afterBytes [(.command,
      0x80#8 ||| BitVec.ofNat 8 (min column.toNat s.maxCol.toNat + rowBase (min row.toNat s.maxRow.toNat)))])

/-- R115: for every configuration whose addresses stay below 0x80, the one logical byte is `0x80 +` the address. -/
def Obligations.CursorLaw : Prop :=
  ∀ (column row : Byte) (s t : State) (lines : Option Byte), s.pins.sane → s.maxRow.toNat ≤ 3 →
    (∀ r ≤ s.maxRow.toNat, s.maxCol.toNat + rowBase r ≤ 0x7F) → exec (.setcursor column row) s = .next t →
    ∃ b : Byte, b.toNat = 0x80 + min column.toNat s.maxCol.toNat + rowBase (min row.toNat s.maxRow.toNat)
      ∧ logicalBytes s.pins lines (t.trace.drop s.trace.length) = [(.command, b)]

/-- R111, R76: CLEARLINE sends the cursor command for column 0 of the clamped row and then `MAXCOL + 2` spaces
(that the count is not reduced is the spec's own decision D15). -/
def Obligations.ClearLineCompletes : Prop :=
  ∀ (row : Byte) (s : State), s.fsm = .ready → s.maxRow.toNat ≤ 3 →
    exec (.clearline row) s = .next (s.afterBytes
      ((.command, BitVec.ofNat 8 (0x80 + rowBase (min row.toNat s.maxRow.toNat)))
        :: List.replicate (s.maxCol.toNat + 2) (.data, 0x20#8)))

/-- R111 corner case 1, R170, R42: the extra space of CLEARLINE lands at the row's base plus `NCOLS`, the others on the
row's columns. An inference the spec marks as its own, over the shadow of log entry 17. -/
def Obligations.ClearLineLandings : Prop :=
  ∀ (row : Byte) (s t : State) (lines : Option Byte) (cur : Option Cursor), s.pins.sane → s.maxRow.toNat ≤ 3 →
    exec (.clearline row) s = .next t → s.maxCol.toNat + 1 + rowBase (min row.toNat s.maxRow.toNat) ≤ 0x7F →
    landings cur (logicalBytes s.pins lines (t.trace.drop s.trace.length))
      = (List.range (s.maxCol.toNat + 2)).map fun c =>
          { ram := .ddram, addr := some (BitVec.ofNat 7 (rowBase (min row.toNat s.maxRow.toNat) + c)), value := 0x20#8 }

/-- R112: SETBACKLIGHT stores the flag and writes, bare, the latch with its backlight bit set according to the flag (the
flag's sense is the spec's own decision D10, the legal operands D17). -/
def Obligations.SetBacklightCompletes : Prop :=
  ∀ (on : Byte) (s : State), s.fsm = .ready → (on = 0#8 ∨ on = 1#8) →
    ∃ x : Byte, exec (.setbacklight on) s
        = .next { s with bl := decide (on = 1#8), latch := x, trace := s.trace ++ bareWrite (addrwByte s.addr) x }
      ∧ ∀ k : Fin 8, x.getLsbD k.val
          = if k.val = s.blPos.toNat then decide (on = 1#8) else s.latch.getLsbD k.val

/-- R112 corner case 1, R41: the same SETBACKLIGHT again changes no register and still issues its bare write, with the
latch as it is (an inference the spec marks as its own). -/
def Obligations.SetBacklightAgain : Prop :=
  ∀ (on : Byte) (s t : State), exec (.setbacklight on) s = .next t →
    exec (.setbacklight on) t = .next { t with trace := t.trace ++ bareWrite (addrwByte t.addr) t.latch }

/-- R113: LOADGLYPH sends, row by row, the CGRAM address command and the bitmap row as given (that the row is not
masked is the spec's own decision D24). -/
def Obligations.LoadGlyphCompletes : Prop :=
  ∀ (bitmap : Bitmap) (slot : Byte) (s : State), s.fsm = .ready → slot.toNat ≤ 7 →
    exec (.loadglyph bitmap slot) s = .next (s.afterBytes (glyphBytes bitmap slot))

/-- R62: no carry and no overflow in the CGRAM address. -/
def Obligations.CgramAddressExact : Prop :=
  ∀ (slot : Byte) (r : Nat), slot.toNat ≤ 7 → r ≤ 7 →
    (cgramBase slot + BitVec.ofNat 8 r).toNat = 0x40 + 8 * slot.toNat + r
    ∧ cgramBase slot + BitVec.ofNat 8 r = cgramBase slot ||| BitVec.ofNat 8 r

/-- R43, R168: the rows of a glyph land at `slot * 8 + row` of CGRAM, wherever the address was; afterwards the address is the
next one of CGRAM, unknown after the last. Over the shadow of log entry 17. -/
def Obligations.GlyphLandings : Prop :=
  ∀ (bitmap : Bitmap) (slot : Byte) (cur : Option Cursor), slot.toNat ≤ 7 →
    landings cur (glyphBytes bitmap slot) = (List.finRange 8).map (fun r =>
      { ram := .cgram, addr := some (BitVec.ofNat 7 (8 * slot.toNat + r.val)), value := bitmap.get r })
    ∧ cursorAfter cur (glyphBytes bitmap slot)
        = some { ram := .cgram, addr := if slot = 7#8 then none else some (BitVec.ofNat 7 (8 * slot.toNat + 8)) }

/-- R168 (an inference the spec marks as its own; the shadow, and what the clear command leaves, are log entry 17): text sent
after a LOADGLYPH, or after an INIT with glyphs, without a cursor command goes to CGRAM, every byte of it; after an INIT
without glyphs the address is DDRAM 0. -/
def Obligations.TextAfterGlyphsGoesToCgram : Prop :=
  (∀ (bitmap : Bitmap) (slot : Byte) (text : List Byte) (s t u : State) (lines : Option Byte) (cur : Option Cursor),
    s.pins.sane → exec (.loadglyph bitmap slot) s = .next t → exec (.print text) t = .next u →
      (landings cur (logicalBytes s.pins lines (u.trace.drop s.trace.length))).map (fun l => l.ram)
        = List.replicate (8 + text.length) .cgram)
  ∧ ∀ (text : List Byte) (cur : Option Cursor),
      if Config.hasGlyphs then
        (landings (cursorAfter cur initBytes) (text.map fun c => (.data, c))).map (fun l => l.ram)
          = List.replicate text.length .cgram
      else cursorAfter cur initBytes = some { ram := .ddram, addr := some 0#7 }

/-! ### Text -/

/-- R120, R63: PRINTCHAR sends one Data byte: a space for a code below 32, the code itself otherwise. -/
def Obligations.PrintCharCompletes : Prop :=
  ∀ (c : Byte) (s : State), s.fsm = .ready →
    exec (.printchar c) s = .next (s.afterBytes [(.data, if c.toNat < 32 then 0x20#8 else c)])

/-- R121: PRINT sends one Data byte per character, in order, with the same replacement. The terminator, which no character
equals, is log entry 5. -/
def Obligations.PrintCompletes : Prop :=
  ∀ (text : List Byte) (s : State), s.fsm = .ready → (∀ c ∈ text, c ≠ 0x00#8) →
    exec (.print text) s
      = .next (s.afterBytes (text.map fun c => (.data, if c.toNat < 32 then 0x20#8 else c)))

/-- R75, R121, R122: PRINTCENTER sends `max(0, NCOLS - len) / 2` spaces and then the string as PRINT does. The terminator,
which no character equals, is log entry 5. -/
def Obligations.PrintCenterCompletes : Prop :=
  ∀ (text : List Byte) (s : State), s.fsm = .ready → (∀ c ∈ text, c ≠ 0x00#8) →
    exec (.printcenter text) s
      = .next (s.afterBytes (List.replicate
            ((if text.length > s.maxCol.toNat + 1 then 0 else s.maxCol.toNat + 1 - text.length) / 2) (.data, 0x20#8)
          ++ text.map fun c => (.data, if c.toNat < 32 then 0x20#8 else c)))

/-- R123 (inferences the spec marks as its own; the terminator, which no character of a string equals, is log entry 5): the
emission laws (a) to (e). -/
def Obligations.EmissionLaws : Prop :=
  (∀ (i : Instr) (s t : State) (lines : Option Byte),
      ((∃ c, i = .printchar c) ∨ (∃ x, i = .print x) ∨ ∃ x, i = .printcenter x) → exec i s = .next t →
      t = { s with latch := t.latch, trace := t.trace }
      ∧ (s.pins.sane → ∀ b ∈ logicalBytes s.pins lines (t.trace.drop s.trace.length),
          b.1 = .data ∧ 0x20 ≤ b.2.toNat ∧ b.2.toNat ≤ 0xFF))
  ∧ (∀ (text : List Byte) (s t : State) (lines : Option Byte), s.pins.sane →
      (exec (.print text) s = .next t →
        (logicalBytes s.pins lines (t.trace.drop s.trace.length)).length = text.length)
      ∧ (exec (.printcenter text) s = .next t →
        (logicalBytes s.pins lines (t.trace.drop s.trace.length)).length
          = max 0 (s.maxCol.toNat + 1 - text.length) / 2 + text.length))
  ∧ (∀ (x y : List Byte) (s : State), s.fsm = .ready → (∀ c ∈ x ++ y, c ≠ 0x00#8) →
      exec (.print (x ++ y)) s = execAll [.print x, .print y] s)
  ∧ ∀ (c : Byte) (s : State), c ≠ 0x00#8 → exec (.print [c]) s = exec (.printchar c) s

/-- R69: the operations that expand into others give the same events and the same final state as their expansions
(an inference the spec marks as its own; the terminator is log entry 5, a step that begins in `GlyphLoad` log entry 18). -/
def Obligations.ExpansionsAgree : Prop :=
  (∀ (row : Byte) (s : State), s.fsm = .ready →
      exec (.clearline row) s
        = execAll (.setcursor 0x00#8 row :: List.replicate (s.maxCol.toNat + 2) (.printchar 32#8)) s)
  ∧ (∀ (text : List Byte) (s : State), s.fsm = .ready → (∀ c ∈ text, c ≠ 0x00#8) →
      exec (.print text) s = execAll (text.map .printchar) s
      ∧ exec (.printcenter text) s
          = execAll (List.replicate (leadSpaces s.maxCol text.length) (.printchar 32#8) ++ [.print text]) s)
  ∧ ∀ s : State, s.fsm = .glyphLoad → s.waiting = false → s.port = [] →
      step s = execAll ((List.finRange 8).map fun k => .loadglyph (Config.glyphRom k) (BitVec.ofNat 8 k.val))
        { s with fsm := .ready }

/-! ### Acceptance and frames -/

/-- R140, R66: a host operation completes exactly where the state accepts it and its operands are legal; otherwise it is
refused, and the state is named before the operands (the spec's own decision D14; for strings log entry 15). -/
def Obligations.AcceptanceExact : Prop :=
  ∀ (i : Instr) (s : State), i.format = .host →
    (acceptedIn i s.fsm = true → i.wellFormed = true → ∃ t, exec i s = .next t)
    ∧ (acceptedIn i s.fsm = true → i.wellFormed = false → exec i s = .refused .badOperand)
    ∧ (acceptedIn i s.fsm = false → exec i s = .refused .notReady)

/-- R21: what a host operation leaves as it was: the command bytes and port inputs always, every issued event of the
trace, the configuration and the FSM unless it is INIT, the flag unless it is SETBACKLIGHT. The table
of R21 is an inference the spec marks as its own. -/
def Obligations.HostOperationFrame : Prop :=
  ∀ (i : Instr) (s t : State), i.format = .host → exec i s = .next t →
    t.cmd = s.cmd ∧ t.port = s.port ∧ t.waiting = s.waiting ∧ (∃ es, t.trace = s.trace ++ es)
    ∧ (isInit i = false → t.config = s.config ∧ t.fsm = s.fsm)
    ∧ (isSetBacklight i = false → t.bl = s.bl)
    ∧ (isInit i = true → t.fsm = .ready)

/-- What an emission leaves as it was: everything but the latch, the trace and, for the six of INIT, the FSM; an address
byte leaves the latch too (R19). That an emission can be run by itself is the model's choice: log entry 12. -/
def Obligations.EmissionFrame : Prop :=
  ∀ (i : Instr) (s t : State), i.format ≠ .host → exec i s = .next t →
    t = { s with latch := t.latch, trace := t.trace, fsm := t.fsm }
    ∧ (∃ es, t.trace = s.trace ++ es)
    ∧ ((∃ a, i = .addrw a) → t.latch = s.latch)
    ∧ (s.fsm.emission ≠ some i → t.fsm = s.fsm)

/-! ### Whole-machine rules -/

/-- R21, R47 (an inference the spec marks as its own; what reset leaves there is log entry 6): no step changes the
configuration registers but an INIT taken from the command port, or a reset. -/
def Obligations.OnlyInitAndResetWriteConfig : Prop :=
  ∀ s t : State, step s = .next t → t.config ≠ s.config →
    .reset ∈ s.port ∨ ∃ (o : InitOperands) (rest : List Byte), s.cmdReady = true ∧ decode s.cmd = .ok o.instr rest

/-- R18, R21 (INIT's leaving it is the spec's own decision D10): no step changes the flag but a SETBACKLIGHT taken from the
command port, or a reset. -/
def Obligations.OnlySetBacklightAndResetWriteFlag : Prop :=
  ∀ s t : State, step s = .next t → t.bl ≠ s.bl →
    .reset ∈ s.port ∨ ∃ (on : Byte) (rest : List Byte), s.cmdReady = true ∧ s.fsm = .ready ∧ decode s.cmd = .ok (.setbacklight on) rest

/-- R24: the trace is empty at reset; every step appends to it and removes nothing from it, a hardware reset included. -/
def Obligations.TraceOnlyGrows : Prop :=
  State.reset.trace = [] ∧ ∀ s t : State, step s = .next t → ∃ es, t.trace = s.trace ++ es

/-- R26 item 5: in a quiet environment every step appends waits and closed transactions of three or two writes, each
behind the address byte of that moment (an inference the spec marks as its own). -/
def Obligations.TraceShapeKept : Prop :=
  ∀ s t : State, quiet s.port = true → step s = .next t →
    ∃ es, t.trace = s.trace ++ es ∧ shaped (addrwByte t.addr) es = true

/-- R160, R175: between operations a step issues the waits 15, 5, 2 if it takes an INIT, and no wait otherwise (the
exact numbers are the spec's own decision D11). -/
def Obligations.WaitsOnlyInInit : Prop :=
  ∀ (s t : State) (i : Instr) (rest : List Byte), s.cmdReady = true → quiet s.port = true →
    decode s.cmd = .ok i rest → step s = .next t →
    delaysOf (t.trace.drop s.trace.length) = if isInit i then [15, 5, 2] else []

/-- R26 items 1 to 4 (inferences the spec marks as its own): what holds between operations is kept by every step, resets
included. -/
def Obligations.InvariantKept : Prop :=
  ∀ s t : State, Inv s → step s = .next t → Inv t

/-- The invariant of `InvariantKept` holds after reset (with the spec's own reset values, its decision D5). -/
def Obligations.InvariantAtReset : Prop :=
  Inv State.reset
end

