-- ==== Sys2Proof/Laws/Operands.lean ====
section
/-! SUPPORT. The bits of the operand functions: what each holds at position `k`. -/

namespace Sys2Proof.Machine

/-- `bit(p)` has its one 1 at position `p` (R72). -/
theorem bit_getLsbD (p : Pos) (k : Nat) (hk : k < 8) : (bit p).getLsbD k = decide (k = p.toNat) := by
  revert p; interval_cases k <;> decide

@[simp] theorem bit_getElem (p : Pos) (k : Nat) (hk : k < 8) : (bit p)[k] = decide (k = p.toNat) := by
  rw [← BitVec.getLsbD_eq_getElem, bit_getLsbD p k hk]

/-- The flag's contribution to a frame (R80). -/
@[simp] theorem backlightBits_getElem (p : Pos) (bl : Bool) (k : Nat) (hk : k < 8) :
    (backlightBits p bl)[k] = (bl && decide (k = p.toNat)) := by
  cases bl <;> simp [backlightBits]

/-- The recomputed latch (R112): the flag at the backlight position, the old bits elsewhere. -/
theorem relight_getElem (latch : Byte) (p : Pos) (bl : Bool) (k : Nat) (hk : k < 8) :
    (relight latch p bl)[k] = if k = p.toNat then bl else latch[k] := by
  by_cases h : k = p.toNat <;> simp [relight, h]

/-- A positioned nibble lies on the data lines (R59). -/
theorem posNibble_dataMask (nib : Bool) (n : Nibble) : posNibble nib n &&& dataMask nib = posNibble nib n := by
  revert n; cases nib <;> decide

/-- The row table as the statements read it, for the rows it has (R22). -/
theorem rowOff_toNat (r : Byte) (h : r.toNat ≤ 3) : (rowOff r).toNat = rowBase r.toNat := by
  have : r.toNat = 0 ∨ r.toNat = 1 ∨ r.toNat = 2 ∨ r.toNat = 3 := by omega
  rcases this with h | h | h | h <;> simp [rowOff, rowBase, Config.rowOffTable, h]

/-- The clamp is the minimum of the numbers (R73). -/
theorem minByte_toNat (a b : Byte) : (minByte a b).toNat = min a.toNat b.toNat := by
  unfold minByte
  split <;> rename_i h <;> simp only [BitVec.le_def] at h <;> omega

/-- San on numbers (R63). -/
theorem san_eq (c : Byte) : san c = if c.toNat < 32 then 0x20#8 else c := by
  simp [san, Config.ctrlLimit, Config.space, BitVec.lt_def]

end Sys2Proof.Machine
end

