-- ==== Sys2Proof/Laws/PerInstr.lean ====
section
/-! SUPPORT. The family EncodedLength: every instruction's encoding has the length its table row gives (spec 30_encoding
R56, R67). -/

namespace Sys2Proof.Laws.EncodedLength

/-- The encoding is as long as the table says. -/
def Statement (i : Instr) : Prop := (encode i).length = i.length

theorem init (c r a n e w s b : Byte) : Statement (.init c r a n e w s b) := rfl

theorem setcursor (c r : Byte) : Statement (.setcursor c r) := rfl

theorem clearline (r : Byte) : Statement (.clearline r) := rfl

theorem setbacklight (on : Byte) : Statement (.setbacklight on) := rfl

theorem loadglyph (bitmap : Bitmap) (slot : Byte) : Statement (.loadglyph bitmap slot) := by
  simp [Statement, encode, Instr.length]

theorem printchar (c : Byte) : Statement (.printchar c) := rfl

theorem print (text : List Byte) : Statement (.print text) := by simp [Statement, encode, Instr.length]

theorem printcenter (text : List Byte) : Statement (.printcenter text) := by simp [Statement, encode, Instr.length]

theorem addrw (a : BusAddr) : Statement (.addrw a) := rfl

theorem frame (f : Byte) : Statement (.frame f) := rfl

theorem force8 : Statement .force8 := rfl

theorem switch4 : Statement .switch4 := rfl

theorem functionSet : Statement .functionSet := rfl

theorem displayOn : Statement .displayOn := rfl

theorem clear : Statement .clear := rfl

theorem entryMode : Statement .entryMode := rfl

theorem setCgram (slot row : BitVec 3) : Statement (.setCgram slot row) := rfl

theorem setDdram (a : BitVec 7) : Statement (.setDdram a) := rfl

theorem data (d : Byte) : Statement (.data d) := rfl

end Sys2Proof.Laws.EncodedLength
end

