-- ==== Sys2Proof/Laws/State.lean ====
section
/-! SUPPORT. One lemma per field per named update of State, each true by rfl, so that no later proof unfolds a record
update. -/

namespace Sys2Proof.Machine

@[simp] theorem State.emit_nib (s : State) (e : Event) : (s.emit e).nib = s.nib := rfl
@[simp] theorem State.emit_enPos (s : State) (e : Event) : (s.emit e).enPos = s.enPos := rfl
@[simp] theorem State.emit_rwPos (s : State) (e : Event) : (s.emit e).rwPos = s.rwPos := rfl
@[simp] theorem State.emit_rsPos (s : State) (e : Event) : (s.emit e).rsPos = s.rsPos := rfl
@[simp] theorem State.emit_blPos (s : State) (e : Event) : (s.emit e).blPos = s.blPos := rfl
@[simp] theorem State.emit_addr (s : State) (e : Event) : (s.emit e).addr = s.addr := rfl
@[simp] theorem State.emit_maxCol (s : State) (e : Event) : (s.emit e).maxCol = s.maxCol := rfl
@[simp] theorem State.emit_maxRow (s : State) (e : Event) : (s.emit e).maxRow = s.maxRow := rfl
@[simp] theorem State.emit_bl (s : State) (e : Event) : (s.emit e).bl = s.bl := rfl
@[simp] theorem State.emit_latch (s : State) (e : Event) : (s.emit e).latch = s.latch := rfl
@[simp] theorem State.emit_fsm (s : State) (e : Event) : (s.emit e).fsm = s.fsm := rfl
@[simp] theorem State.emit_waiting (s : State) (e : Event) : (s.emit e).waiting = s.waiting := rfl
@[simp] theorem State.emit_trace (s : State) (e : Event) : (s.emit e).trace = s.trace ++ [e] := rfl
@[simp] theorem State.emit_cmd (s : State) (e : Event) : (s.emit e).cmd = s.cmd := rfl
@[simp] theorem State.emit_port (s : State) (e : Event) : (s.emit e).port = s.port := rfl

@[simp] theorem State.setFsm_nib (s : State) (f : Fsm) : (s.setFsm f).nib = s.nib := rfl
@[simp] theorem State.setFsm_enPos (s : State) (f : Fsm) : (s.setFsm f).enPos = s.enPos := rfl
@[simp] theorem State.setFsm_rwPos (s : State) (f : Fsm) : (s.setFsm f).rwPos = s.rwPos := rfl
@[simp] theorem State.setFsm_rsPos (s : State) (f : Fsm) : (s.setFsm f).rsPos = s.rsPos := rfl
@[simp] theorem State.setFsm_blPos (s : State) (f : Fsm) : (s.setFsm f).blPos = s.blPos := rfl
@[simp] theorem State.setFsm_addr (s : State) (f : Fsm) : (s.setFsm f).addr = s.addr := rfl
@[simp] theorem State.setFsm_maxCol (s : State) (f : Fsm) : (s.setFsm f).maxCol = s.maxCol := rfl
@[simp] theorem State.setFsm_maxRow (s : State) (f : Fsm) : (s.setFsm f).maxRow = s.maxRow := rfl
@[simp] theorem State.setFsm_bl (s : State) (f : Fsm) : (s.setFsm f).bl = s.bl := rfl
@[simp] theorem State.setFsm_latch (s : State) (f : Fsm) : (s.setFsm f).latch = s.latch := rfl
@[simp] theorem State.setFsm_fsm (s : State) (f : Fsm) : (s.setFsm f).fsm = f := rfl
@[simp] theorem State.setFsm_waiting (s : State) (f : Fsm) : (s.setFsm f).waiting = s.waiting := rfl
@[simp] theorem State.setFsm_trace (s : State) (f : Fsm) : (s.setFsm f).trace = s.trace := rfl
@[simp] theorem State.setFsm_cmd (s : State) (f : Fsm) : (s.setFsm f).cmd = s.cmd := rfl
@[simp] theorem State.setFsm_port (s : State) (f : Fsm) : (s.setFsm f).port = s.port := rfl

@[simp] theorem State.setLatch_nib (s : State) (b : Byte) : (s.setLatch b).nib = s.nib := rfl
@[simp] theorem State.setLatch_enPos (s : State) (b : Byte) : (s.setLatch b).enPos = s.enPos := rfl
@[simp] theorem State.setLatch_rwPos (s : State) (b : Byte) : (s.setLatch b).rwPos = s.rwPos := rfl
@[simp] theorem State.setLatch_rsPos (s : State) (b : Byte) : (s.setLatch b).rsPos = s.rsPos := rfl
@[simp] theorem State.setLatch_blPos (s : State) (b : Byte) : (s.setLatch b).blPos = s.blPos := rfl
@[simp] theorem State.setLatch_addr (s : State) (b : Byte) : (s.setLatch b).addr = s.addr := rfl
@[simp] theorem State.setLatch_maxCol (s : State) (b : Byte) : (s.setLatch b).maxCol = s.maxCol := rfl
@[simp] theorem State.setLatch_maxRow (s : State) (b : Byte) : (s.setLatch b).maxRow = s.maxRow := rfl
@[simp] theorem State.setLatch_bl (s : State) (b : Byte) : (s.setLatch b).bl = s.bl := rfl
@[simp] theorem State.setLatch_latch (s : State) (b : Byte) : (s.setLatch b).latch = b := rfl
@[simp] theorem State.setLatch_fsm (s : State) (b : Byte) : (s.setLatch b).fsm = s.fsm := rfl
@[simp] theorem State.setLatch_waiting (s : State) (b : Byte) : (s.setLatch b).waiting = s.waiting := rfl
@[simp] theorem State.setLatch_trace (s : State) (b : Byte) : (s.setLatch b).trace = s.trace := rfl
@[simp] theorem State.setLatch_cmd (s : State) (b : Byte) : (s.setLatch b).cmd = s.cmd := rfl
@[simp] theorem State.setLatch_port (s : State) (b : Byte) : (s.setLatch b).port = s.port := rfl

@[simp] theorem State.setBl_nib (s : State) (on : Bool) : (s.setBl on).nib = s.nib := rfl
@[simp] theorem State.setBl_enPos (s : State) (on : Bool) : (s.setBl on).enPos = s.enPos := rfl
@[simp] theorem State.setBl_rwPos (s : State) (on : Bool) : (s.setBl on).rwPos = s.rwPos := rfl
@[simp] theorem State.setBl_rsPos (s : State) (on : Bool) : (s.setBl on).rsPos = s.rsPos := rfl
@[simp] theorem State.setBl_blPos (s : State) (on : Bool) : (s.setBl on).blPos = s.blPos := rfl
@[simp] theorem State.setBl_addr (s : State) (on : Bool) : (s.setBl on).addr = s.addr := rfl
@[simp] theorem State.setBl_maxCol (s : State) (on : Bool) : (s.setBl on).maxCol = s.maxCol := rfl
@[simp] theorem State.setBl_maxRow (s : State) (on : Bool) : (s.setBl on).maxRow = s.maxRow := rfl
@[simp] theorem State.setBl_bl (s : State) (on : Bool) : (s.setBl on).bl = on := rfl
@[simp] theorem State.setBl_latch (s : State) (on : Bool) : (s.setBl on).latch = s.latch := rfl
@[simp] theorem State.setBl_fsm (s : State) (on : Bool) : (s.setBl on).fsm = s.fsm := rfl
@[simp] theorem State.setBl_waiting (s : State) (on : Bool) : (s.setBl on).waiting = s.waiting := rfl
@[simp] theorem State.setBl_trace (s : State) (on : Bool) : (s.setBl on).trace = s.trace := rfl
@[simp] theorem State.setBl_cmd (s : State) (on : Bool) : (s.setBl on).cmd = s.cmd := rfl
@[simp] theorem State.setBl_port (s : State) (on : Bool) : (s.setBl on).port = s.port := rfl

@[simp] theorem configure_nib (c r a n e w q b : Byte) (s : State) : (configure c r a n e w q b s).nib = n.getLsbD 0 := rfl
@[simp] theorem configure_enPos (c r a n e w q b : Byte) (s : State) : (configure c r a n e w q b s).enPos = e.setWidth 3 := rfl
@[simp] theorem configure_rwPos (c r a n e w q b : Byte) (s : State) : (configure c r a n e w q b s).rwPos = w.setWidth 3 := rfl
@[simp] theorem configure_rsPos (c r a n e w q b : Byte) (s : State) : (configure c r a n e w q b s).rsPos = q.setWidth 3 := rfl
@[simp] theorem configure_blPos (c r a n e w q b : Byte) (s : State) : (configure c r a n e w q b s).blPos = b.setWidth 3 := rfl
@[simp] theorem configure_addr (c r a n e w q b : Byte) (s : State) : (configure c r a n e w q b s).addr = a.setWidth 7 := rfl
@[simp] theorem configure_maxCol (c r a n e w q b : Byte) (s : State) : (configure c r a n e w q b s).maxCol = c - 1#8 := rfl
@[simp] theorem configure_maxRow (c r a n e w q b : Byte) (s : State) : (configure c r a n e w q b s).maxRow = r - 1#8 := rfl
@[simp] theorem configure_bl (c r a n e w q b : Byte) (s : State) : (configure c r a n e w q b s).bl = s.bl := rfl
@[simp] theorem configure_latch (c r a n e w q b : Byte) (s : State) : (configure c r a n e w q b s).latch = s.latch := rfl
@[simp] theorem configure_fsm (c r a n e w q b : Byte) (s : State) : (configure c r a n e w q b s).fsm = .powerWait := rfl
@[simp] theorem configure_waiting (c r a n e w q b : Byte) (s : State) : (configure c r a n e w q b s).waiting = s.waiting := rfl
@[simp] theorem configure_trace (c r a n e w q b : Byte) (s : State) : (configure c r a n e w q b s).trace = s.trace := rfl
@[simp] theorem configure_cmd (c r a n e w q b : Byte) (s : State) : (configure c r a n e w q b s).cmd = s.cmd := rfl
@[simp] theorem configure_port (c r a n e w q b : Byte) (s : State) : (configure c r a n e w q b s).port = s.port := rfl

@[simp] theorem applyReset_nib (s : State) : (applyReset s).nib = State.reset.nib := rfl
@[simp] theorem applyReset_enPos (s : State) : (applyReset s).enPos = State.reset.enPos := rfl
@[simp] theorem applyReset_rwPos (s : State) : (applyReset s).rwPos = State.reset.rwPos := rfl
@[simp] theorem applyReset_rsPos (s : State) : (applyReset s).rsPos = State.reset.rsPos := rfl
@[simp] theorem applyReset_blPos (s : State) : (applyReset s).blPos = State.reset.blPos := rfl
@[simp] theorem applyReset_addr (s : State) : (applyReset s).addr = State.reset.addr := rfl
@[simp] theorem applyReset_maxCol (s : State) : (applyReset s).maxCol = State.reset.maxCol := rfl
@[simp] theorem applyReset_maxRow (s : State) : (applyReset s).maxRow = State.reset.maxRow := rfl
@[simp] theorem applyReset_bl (s : State) : (applyReset s).bl = State.reset.bl := rfl
@[simp] theorem applyReset_latch (s : State) : (applyReset s).latch = State.reset.latch := rfl
@[simp] theorem applyReset_fsm (s : State) : (applyReset s).fsm = State.reset.fsm := rfl
@[simp] theorem applyReset_waiting (s : State) : (applyReset s).waiting = State.reset.waiting := rfl
@[simp] theorem applyReset_trace (s : State) : (applyReset s).trace = s.trace := rfl
@[simp] theorem applyReset_cmd (s : State) : (applyReset s).cmd = s.cmd := rfl
@[simp] theorem applyReset_port (s : State) : (applyReset s).port = s.port := rfl

end Sys2Proof.Machine
end

