-- ==== Sys2Proof/Laws/Step.lean ====
section
/-! SUPPORT. What the ports and a step can do, said once. -/

namespace Sys2Proof.Machine

/-- Quiet inputs carry every event and lose one entry each (R159). -/
theorem carry_quiet (n : Nat) (ins : List PortIn) (h : quiet ins = true) : carry n ins = .all (ins.drop n) := by
  induction n generalizing ins with
  | zero => simp [carry]
  | succ n ih =>
    cases ins with
    | nil => simp [carry]
    | cons p ins =>
      cases p <;> simp_all [quiet, carry, Carried.after]

/-- A reset after some completed events, fewer than all, cuts the operation there (R151). -/
theorem carry_cut (acks : List Bool) (ins : List PortIn) (n : Nat) (h : acks.length < n) :
    carry n (dones acks ++ .reset :: ins) = .cut acks.length ins := by
  induction acks generalizing n with
  | nil => obtain ⟨n, rfl⟩ := Nat.exists_eq_add_of_lt h; simp [dones, carry]
  | cons a as ih =>
    cases n with
    | zero => simp at h
    | succ n => simpa [dones, carry, Carried.after] using congrArg Carried.after (ih n (by simpa using h))

/-- A hanging event after some completed ones is issued, and is the last (R85). -/
theorem carry_hung (acks : List Bool) (ins : List PortIn) (n : Nat) (h : acks.length < n) :
    carry n (dones acks ++ .hang :: ins) = .hung (acks.length + 1) ins := by
  induction acks generalizing n with
  | nil => obtain ⟨n, rfl⟩ := Nat.exists_eq_add_of_lt h; simp [dones, carry]
  | cons a as ih =>
    cases n with
    | zero => simp at h
    | succ n => simpa [dones, carry, Carried.after] using congrArg Carried.after (ih n (by simpa using h))

/-- A state of INIT is kept until its last event has completed (R102). -/
theorem fsmAfter_stay {glyphs : Bool} {fuel done : Nat} {f : Fsm} (h : done < (fsmRow glyphs f).1) :
    fsmAfter glyphs (fuel + 1) f done = f := by
  rw [fsmAfter]; simp [h]

/-- A state of INIT is left when its last event has completed (R102). -/
theorem fsmAfter_go {glyphs : Bool} {fuel done : Nat} {f : Fsm} (hf : f ≠ .ready) (h : ¬ done < (fsmRow glyphs f).1) :
    fsmAfter glyphs (fuel + 1) f done = fsmAfter glyphs fuel (fsmRow glyphs f).2 (done - (fsmRow glyphs f).1) := by
  rw [fsmAfter]; simp [hf, h]

/-- `Ready` has no successor (R101). -/
@[simp] theorem fsmAfter_ready (glyphs : Bool) (fuel done : Nat) : fsmAfter glyphs fuel .ready done = .ready := by
  cases fuel <;> simp [fsmAfter]

@[simp] theorem stuckAt_waiting (f : Fsm) (s t : State) (k : Nat) : (stuckAt f s t k).waiting = true := rfl
@[simp] theorem stuckAt_bl (f : Fsm) (s t : State) (k : Nat) : (stuckAt f s t k).bl = t.bl := rfl
@[simp] theorem stuckAt_config (f : Fsm) (s t : State) (k : Nat) : (stuckAt f s t k).config = t.config := rfl
@[simp] theorem stuckAt_cmd (f : Fsm) (s t : State) (k : Nat) : (stuckAt f s t k).cmd = t.cmd := rfl
@[simp] theorem stuckAt_fsm (f : Fsm) (s t : State) (k : Nat) :
    (stuckAt f s t k).fsm = fsmAfter Config.hasGlyphs 11 f (k - 1) := rfl

/-- The trace of a stuck block: the events of the operation up to the one it is stuck at (R85). -/
theorem stuckAt_trace (f : Fsm) (s t : State) (k : Nat) (es : List Event) (h : t.trace = s.trace ++ es) :
    (stuckAt f s t k).trace = t.trace.take (s.trace.length + k) := by
  simp [stuckAt, h, List.take_append]

/-- A quiet environment lets an operation complete. -/
theorem settle_quiet (f : Fsm) (s t : State) (h : quiet s.port = true) :
    settle f s t = { t with port := s.port.drop (t.trace.length - s.trace.length) } := by
  simp [settle, carry_quiet _ _ h]

/-- What an operation that meets the ports can come to (R151, R85): completed, cut by a reset after some events, or stuck
at one of them, which takes a hanging input. -/
theorem settle_cases (f : Fsm) (s t : State) :
    (∃ rest, settle f s t = { t with port := rest })
    ∨ (∃ k rest, settle f s t = { applyReset t with trace := t.trace.take (s.trace.length + k), port := rest })
    ∨ ∃ k rest, settle f s t = { stuckAt f s t k with port := rest } := by
  unfold settle
  split
  · exact .inl ⟨_, rfl⟩
  · exact .inr (.inl ⟨_, _, rfl⟩)
  · exact .inr (.inr ⟨_, _, rfl⟩)

/-- Without a reset at the port and without a wait, a step is the FSM's action or the next command. -/
theorem step_eq {s : State} (hn : noReset s.port = true) (hw : s.waiting = false) :
    step s = match fsmAction s with
      | some o => settleOutcome s.fsm s o
      | none => runCommand s := by
  unfold step stepBlock
  split
  · rename_i h; simp [h, noReset] at hn
  · rw [hw]; cases fsmAction s <;> rfl

/-- `cmd_ready` in its two parts (R140, R153). -/
theorem cmdReady_iff (s : State) : s.cmdReady = true ↔ s.fsm.idle = true ∧ s.waiting = false := by simp [State.cmdReady]

/-- Between operations a step is the next command of the port. -/
theorem step_command {s : State} (hn : noReset s.port = true) (hc : s.cmdReady = true) : step s = runCommand s := by
  obtain ⟨hi, hw⟩ := (cmdReady_iff s).1 hc
  have ha : fsmAction s = none := by
    revert hi
    unfold fsmAction
    cases s.fsm <;> simp [Fsm.idle]
  rw [step_eq hn hw, ha]

/-- What a step that goes on has done: a reset; or a stuck block has passed over an input; or an FSM action or a command,
met by the ports; or nothing. -/
theorem step_next {s u : State} (h : step s = .next u) :
    (∃ ins, s.port = .reset :: ins ∧ u = applyReset { s with port := ins })
    ∨ (s.waiting = true ∧ u = { s with port := s.port.drop 1 })
    ∨ (∃ t, s.waiting = false ∧ fsmAction s = some (.next t) ∧ u = settle s.fsm s t)
    ∨ (∃ i rest t, s.cmdReady = true ∧ decode s.cmd = .ok i rest ∧ exec i { s with cmd := rest } = .next t
        ∧ u = settle (startFsm s.fsm i) s t)
    ∨ (s.cmdReady = true ∧ u = s) := by
  unfold step stepBlock at h
  split at h
  · rename_i ins hp
    exact .inl ⟨ins, hp, by simpa using h.symm⟩
  · split at h
    · rename_i hw
      exact .inr (.inl ⟨hw, by simpa using h.symm⟩)
    · rename_i hw
      have hw : s.waiting = false := by simpa using hw
      split at h
      · rename_i o ho
        cases o with
        | next t => exact .inr (.inr (.inl ⟨t, hw, ho, by simpa [settleOutcome] using h.symm⟩))
        | fault f => cases f
        | refused r => simp [settleOutcome] at h
      · rename_i ho
        have hi : s.fsm.idle = true := by
          revert ho
          unfold fsmAction
          cases s.fsm <;> simp [Fsm.idle]
        have hc : s.cmdReady = true := by simp [State.cmdReady, hi, hw]
        unfold runCommand at h
        split at h
        · rename_i i rest hd
          cases hx : exec i { s with cmd := rest } with
          | next t =>
            exact .inr (.inr (.inr (.inl ⟨i, rest, t, hc, hd, hx, by simpa [hx, settleOutcome] using h.symm⟩)))
          | fault f => cases f
          | refused r => simp [hx, settleOutcome] at h
        · exact .inr (.inr (.inr (.inr ⟨hc, by simpa using h.symm⟩)))
        · simp at h

end Sys2Proof.Machine
end

