-- ==== Sys2Proof/Laws/Transfer.lean ====
section
/-! SUPPORT. What each transfer operation does, said once: the latch and the trace, nothing else. Later proofs cite
these and do not unfold the primitives. -/

namespace Sys2Proof.Machine

/-- One enable cycle (R80): the latch is the second frame, and five events are appended. -/
theorem sendNibble_eq (p : Byte) (m : Mode) (s : State) :
    sendNibble p m s = { s with latch := frameLo s.pins s.bl p m, trace := s.trace ++ nibbleEvents s.wiring p m } := by
  simp [sendNibble, busStop, busStart, busWriteAddr, busWriteFrame, State.emit, State.setLatch, nibbleEvents, enableCycle,
    State.wiring, State.pins]

/-- The bare write (R84): the latch is the byte written, and four events are appended. -/
theorem latchWrite_eq (x : Byte) (s : State) :
    latchWrite x s = { s with latch := x, trace := s.trace ++ bareWrite (addrwByte s.addr) x } := by
  simp [latchWrite, busStop, busStart, busWriteAddr, busWriteFrame, State.emit, State.setLatch, bareWrite]

/-- R60: the first half of a byte transfer is the positioned high nibble. -/
theorem splitFirst_eq_pos (nib : Bool) (v : Byte) : splitFirst nib v = posNibble nib (v.extractLsb' 4 4) := by
  revert v; cases nib <;> decide

/-- R60: the second half of a byte transfer is the positioned low nibble. -/
theorem splitSecond_eq_pos (nib : Bool) (v : Byte) : splitSecond nib v = posNibble nib (v.extractLsb' 0 4) := by
  revert v; cases nib <;> decide

/-- One byte transfer (R82). -/
theorem sendByte_eq (v : Byte) (m : Mode) (s : State) : sendByte v m s = s.afterBytes [(m, v)] := by
  simp [sendByte, sendNibble_eq, splitFirst_eq_pos, splitSecond_eq_pos, State.afterBytes, bytesLatch, bytesEvents,
    byteLatch, byteEvents, State.wiring, State.pins]

@[simp] theorem afterBytes_nil (s : State) : s.afterBytes [] = s := by
  simp [State.afterBytes, bytesLatch, bytesEvents]

@[simp] theorem afterBytes_wiring (s : State) (bs : List (Mode × Byte)) : (s.afterBytes bs).wiring = s.wiring := rfl

@[simp] theorem afterBytes_maxCol (s : State) (bs : List (Mode × Byte)) : (s.afterBytes bs).maxCol = s.maxCol := rfl

@[simp] theorem afterBytes_maxRow (s : State) (bs : List (Mode × Byte)) : (s.afterBytes bs).maxRow = s.maxRow := rfl

@[simp] theorem afterBytes_fsm (s : State) (bs : List (Mode × Byte)) : (s.afterBytes bs).fsm = s.fsm := rfl

/-- Sending two lists one after the other is sending both at once. -/
theorem afterBytes_append (s : State) (xs ys : List (Mode × Byte)) :
    (s.afterBytes xs).afterBytes ys = s.afterBytes (xs ++ ys) := by
  cases ys with
  | nil => simp
  | cons y ys =>
    obtain ⟨z, hz⟩ : ∃ z, (y :: ys).getLast? = some z := ⟨_, List.getLast?_eq_some_getLast (by simp)⟩
    simp [State.afterBytes, bytesLatch, bytesEvents, State.wiring, State.pins, hz]

/-- A list of Data bytes. -/
theorem sendDataBytes_eq (bs : List Byte) (s : State) :
    sendDataBytes bs s = s.afterBytes (bs.map fun b => (.data, b)) := by
  induction bs generalizing s with
  | nil => simp [sendDataBytes]
  | cons b bs ih => simp [sendDataBytes, ih, sendByte_eq, afterBytes_append]

/-- The logical bytes of glyph rows from a Command byte on. -/
def rowBytes : List Byte → Byte → List (Mode × Byte)
  | [], _ => []
  | row :: rows, cmd => (.command, cmd) :: (.data, row) :: rowBytes rows (cmd + 1#8)

/-- The rows of a glyph. -/
theorem sendGlyphRows_eq (rows : List Byte) (cmd : Byte) (s : State) :
    sendGlyphRows rows cmd s = s.afterBytes (rowBytes rows cmd) := by
  induction rows generalizing cmd s with
  | nil => simp [sendGlyphRows, rowBytes]
  | cons row rows ih => simp [sendGlyphRows, rowBytes, ih, sendByte_eq, afterBytes_append]

/-- A string through PRINTCHAR. -/
theorem printText_eq (text : List Byte) (s : State) :
    printText text s = s.afterBytes (text.map fun c => (.data, san c)) := by
  induction text generalizing s with
  | nil => simp [printText]
  | cons c cs ih => simp [printText, printChar, ih, sendByte_eq, afterBytes_append]

/-- A display operation completes exactly where the machine is `Ready` and the operands are legal (R140). -/
theorem whenReady_next {legal : Bool} {f : State → State} {s t : State} :
    whenReady legal f s = .next t ↔ s.fsm = .ready ∧ legal = true ∧ t = f s := by
  unfold whenReady
  split <;> (try split) <;> simp_all [eq_comm]

end Sys2Proof.Machine
end

