-- ==== Sys2Proof/Tests/Slice0.lean ====
section
/-! SUPPORT. Tests, with every expected result from the spec's own worked examples (95_test_vectors, cited by its ids; 41_init_fsm
R103; 42_display_control; 43_text_emission), and the witnesses: for every statement with hypotheses, a concrete state
and operands that meet all of them. -/

namespace Sys2Proof.Tests

open Sys2Proof Sys2Proof.Machine

/-! ### Helpers: the two example wirings of R51 and the compact notation of 00_scope section 4 -/

/-- `N(hi,lo)` behind CFG-A's address byte. -/
def nA (hi lo : Byte) : List Event := [.start, .write 0x4E#8, .write hi, .write lo, .stop]

/-- `N(hi,lo)` behind CFG-B's address byte. -/
def nB (hi lo : Byte) : List Event := [.start, .write 0x40#8, .write hi, .write lo, .stop]

/-- CFG-A, `Ready` (R51), the flag and the latch given. -/
def cfgA (bl : Bool) (latch : Byte) : State :=
  { State.reset with
    nib := true, enPos := 2#3, rwPos := 1#3, rsPos := 0#3, blPos := 3#3, addr := 0x27#7, maxCol := 15#8, maxRow := 1#8
    bl := bl, latch := latch, fsm := .ready }

/-- CFG-B, `Ready` (R51). -/
def cfgB (bl : Bool) (latch : Byte) : State :=
  { State.reset with
    nib := false, enPos := 6#3, rwPos := 5#3, rsPos := 4#3, blPos := 7#3, addr := 0x20#7, maxCol := 19#8, maxRow := 3#8
    bl := bl, latch := latch, fsm := .ready }

/-- The state after V-INIT-C: one column, one row, address 0. -/
def cfgC : State :=
  { State.reset with
    nib := false, enPos := 4#3, rwPos := 5#3, rsPos := 6#3, blPos := 7#3, addr := 0#7, maxCol := 0#8, maxRow := 0#8
    latch := 0x06#8, fsm := .ready }

/-- The state after V-INIT-D: 255 columns, four rows. -/
def cfgD : State :=
  { State.reset with
    nib := true, enPos := 0#3, rwPos := 1#3, rsPos := 2#3, blPos := 3#3, addr := 0x7F#7, maxCol := 254#8, maxRow := 3#8
    latch := 0x60#8, fsm := .ready }

/-- CFG-A with the machine in a state of a running INIT. -/
def inInit (f : Fsm) : State := { cfgA false 0x30#8 with fsm := f }

/-- The INIT operands of CFG-A. -/
def opsA : InitOperands :=
  { columns := 16#8, rows := 2#8, busAddress := 0x27#8, nibbleOrder := 1#8, enableBit := 2#8, rwBit := 1#8, rsBit := 0#8
    backlightBit := 3#8 }

/-- The largest legal INIT operands. -/
def opsTop : InitOperands :=
  { columns := 255#8, rows := 4#8, busAddress := 0x7F#8, nibbleOrder := 1#8, enableBit := 7#8, rwBit := 7#8, rsBit := 7#8
    backlightBit := 7#8 }

/-- The host bytes of CFG-A's INIT (P1). -/
def initBytesA : List Byte := [0x01#8, 0x10#8, 0x02#8, 0x27#8, 0x01#8, 0x02#8, 0x01#8, 0x00#8, 0x03#8]

/-- The bitmap of V-LG1. -/
def bitmapLG1 : Bitmap := #v[0x0E#8, 0x11#8, 0x11#8, 0x1F#8, 0x11#8, 0x11#8, 0x11#8, 0x00#8]

/-- What a test looks at: the trace, the latch, the flag and the FSM of a next state. -/
def seen : Host.Outcome State Fault Refusal → Option (List Event × Byte × Bool × Fsm)
  | .next t => some (t.trace, t.latch, t.bl, t.fsm)
  | _ => none

/-- The reason of a refusal. -/
def refusal : Host.Outcome State Fault Refusal → Option Refusal
  | .refused r => some r
  | _ => none

/-- The outcome is a next state. -/
def isNext : Host.Outcome State Fault Refusal → Bool
  | .next _ => true
  | _ => false

/-- The outcome is a state in which the block waits for a port event. -/
def isWaiting : Host.Outcome State Fault Refusal → Bool
  | .next t => t.waiting
  | _ => false

/-- INIT without glyphs, for the vectors of the spec, which take `HAS_GLYPHS` false. -/
def initPlain (o : InitOperands) (s : State) : Host.Outcome State Fault Refusal :=
  initWith false (fun _ => bitmapLG1) o.columns o.rows o.busAddress o.nibbleOrder o.enableBit o.rwBit o.rsBit o.backlightBit s

/-! ### WellFormed: a refused term for each check (R57, 95_test_vectors INIT refusals, V-BL6, V-LG5, D18) -/

theorem test_wf_init : (opsA.instr.wellFormed, opsTop.instr.wellFormed) = (true, true) := by decide
theorem test_wf_columns : Instr.wellFormed (.init 0#8 2#8 0x27#8 1#8 2#8 1#8 0#8 3#8) = false := by decide
theorem test_wf_rows_low : Instr.wellFormed (.init 16#8 0#8 0x27#8 1#8 2#8 1#8 0#8 3#8) = false := by decide
theorem test_wf_rows_high : Instr.wellFormed (.init 16#8 5#8 0x27#8 1#8 2#8 1#8 0#8 3#8) = false := by decide
theorem test_wf_address : Instr.wellFormed (.init 16#8 2#8 0x80#8 1#8 2#8 1#8 0#8 3#8) = false := by decide
theorem test_wf_order : Instr.wellFormed (.init 16#8 2#8 0x27#8 2#8 2#8 1#8 0#8 3#8) = false := by decide
theorem test_wf_enable : Instr.wellFormed (.init 16#8 2#8 0x27#8 1#8 8#8 1#8 0#8 3#8) = false := by decide
theorem test_wf_rw : Instr.wellFormed (.init 16#8 2#8 0x27#8 1#8 2#8 8#8 0#8 3#8) = false := by decide
theorem test_wf_rs : Instr.wellFormed (.init 16#8 2#8 0x27#8 1#8 2#8 1#8 8#8 3#8) = false := by decide
theorem test_wf_backlight : Instr.wellFormed (.init 16#8 2#8 0x27#8 1#8 2#8 1#8 0#8 8#8) = false := by decide
/-- All positions equal is accepted (R52). -/
theorem test_wf_collision : Instr.wellFormed (.init 16#8 2#8 0x27#8 1#8 2#8 2#8 2#8 2#8) = true := by decide
theorem test_wf_on : Instr.wellFormed (.setbacklight 2#8) = false := by decide
theorem test_wf_slot : Instr.wellFormed (.loadglyph bitmapLG1 8#8) = false := by decide
theorem test_wf_text : Instr.wellFormed (.print [0x48#8, 0x00#8]) = false := by decide
theorem test_wf_center : Instr.wellFormed (.printcenter [0x00#8]) = false := by decide

/-! ### Decode: a word per constructor, written from R53 to R56 -/

/-- P1 line 1: `01 10 02 27 01 02 01 00 03`, the first byte least significant. -/
theorem test_decode_init : decodeTableWord 72 0x030001020127021001 = some opsA.instr := by decide
/-- P2 line 3: `02 14 05`. -/
theorem test_decode_setcursor : decodeTableWord 24 0x051402 = some (.setcursor 20#8 5#8) := by decide
/-- P4 line 1: `03 01`. -/
theorem test_decode_clearline : decodeTableWord 16 0x0103 = some (.clearline 1#8) := by decide
/-- P2 line 2: `04 01`. -/
theorem test_decode_setbacklight : decodeTableWord 16 0x0104 = some (.setbacklight 1#8) := by decide
/-- P3 line 2: `05 0E 11 11 1F 11 11 11 00 03`. -/
theorem test_decode_loadglyph :
    decodeTableWord 80 0x03001111111F11110E05 = some (.loadglyph bitmapLG1 3#8) := by decide
/-- P2 line 5: `06 E9`. -/
theorem test_decode_printchar : decodeTableWord 16 0xE906 = some (.printchar 0xE9#8) := by decide
/-- P1 line 3: `07 48 69 00`. -/
theorem test_decode_print : decodeTableWord 32 0x00694807 = some (.print [0x48#8, 0x69#8]) := by decide
/-- P4 line 3: `08 48 49 00`. -/
theorem test_decode_printcenter : decodeTableWord 32 0x00494808 = some (.printcenter [0x48#8, 0x49#8]) := by decide
/-- The table gives PRINT eight bits; the bits above are zeros, and the first is the terminator: `PRINT("")`. -/
theorem test_decode_print_short : decodeTableWord 8 0x07 = some (.print []) := by decide
/-- CFG-A: `ADDR = 0x27` gives `0x4E` (R53); the read variant is never formed. -/
theorem test_decode_addrw :
    decodeAs .addrw [0b01001110#8] = .ok (.addrw 0x27#7) [] ∧ decodeAs .addrw [0b01001111#8] = .reserved 0x4F#8 := by decide
theorem test_decode_frame : decodeAs .frame [0x34#8, 0x30#8] = .ok (.frame 0x34#8) [0x30#8] := by decide
theorem test_decode_force8 : decodeAs .lcdNib [0b0011#8] = .ok .force8 [] := by decide
theorem test_decode_switch4 : decodeAs .lcdNib [0b0010#8] = .ok .switch4 [] := by decide
theorem test_decode_functionSet : decodeAs .lcdCmd [0b00101000#8] = .ok .functionSet [] := by decide
theorem test_decode_displayOn : decodeAs .lcdCmd [0b00001100#8] = .ok .displayOn [] := by decide
theorem test_decode_clear : decodeAs .lcdCmd [0b00000001#8] = .ok .clear [] := by decide
theorem test_decode_entryMode : decodeAs .lcdCmd [0b00000110#8] = .ok .entryMode [] := by decide
/-- Slot 3, row 0 is `0x58` (S8); slot 7, row 7 is `0x7F` (R113 corner case 6). -/
theorem test_decode_setCgram :
    decodeAs .lcdCmd [0x58#8] = .ok (.setCgram 3#3 0#3) [] ∧ decodeAs .lcdCmd [0x7F#8] = .ok (.setCgram 7#3 7#3) [] := by decide
/-- V-SC2: `C:CF` is address `0x4F`. -/
theorem test_decode_setDdram : decodeAs .lcdCmd [0b11001111#8] = .ok (.setDdram 0x4F#7) [] := by decide
theorem test_decode_data : decodeAs .lcdData [0x69#8] = .ok (.data 0x69#8) [] := by decide
/-- V-RF3: opcode bytes that select nothing. -/
theorem test_decode_reserved :
    decode [0x00#8] = .reserved 0x00#8 ∧ decode [0x09#8] = .reserved 0x09#8 ∧ decode [0xFF#8] = .reserved 0xFF#8 := by decide
/-- An operation some of whose bytes are still to come. -/
theorem test_decode_incomplete :
    decode [] = .incomplete ∧ decode [0x02#8, 0x14#8] = .incomplete ∧ decode [0x07#8, 0x48#8] = .incomplete := by decide
/-- The encoder on P3's bytes. -/
theorem test_encode_loadglyph :
    encode (.loadglyph bitmapLG1 3#8) = [0x05#8, 0x0E#8, 0x11#8, 0x11#8, 0x1F#8, 0x11#8, 0x11#8, 0x11#8, 0x00#8, 0x03#8] := by
  decide

/-! ### The primitives -/

/-- V-SN1, V-SN7: the mask drops the low bits. -/
theorem test_sendNibble_A :
    seen (.next (sendNibble 0x30#8 .command (cfgA false 0#8))) = some (nA 0x34#8 0x30#8, 0x30#8, false, .ready)
    ∧ seen (.next (sendNibble 0x3F#8 .command (cfgA false 0#8))) = some (nA 0x34#8 0x30#8, 0x30#8, false, .ready) := by decide
/-- V-SN4, V-SN6. -/
theorem test_sendNibble_data :
    seen (.next (sendNibble 0xF0#8 .data (cfgA true 0#8))) = some (nA 0xFD#8 0xF9#8, 0xF9#8, true, .ready)
    ∧ seen (.next (sendNibble 0x04#8 .data (cfgB true 0#8))) = some (nB 0xD4#8 0x94#8, 0x94#8, true, .ready) := by decide
/-- V-SB4, V-SB5: `0xA5` under both orders. -/
theorem test_sendByte_A5 :
    seen (.next (sendByte 0xA5#8 .data (cfgA false 0#8)))
      = some (nA 0xA5#8 0xA1#8 ++ nA 0x55#8 0x51#8, 0x51#8, false, .ready)
    ∧ seen (.next (sendByte 0xA5#8 .data (cfgB false 0#8)))
      = some (nB 0x5A#8 0x1A#8 ++ nB 0x55#8 0x15#8, 0x15#8, false, .ready) := by decide
/-- V-LW1. -/
theorem test_latchWrite :
    seen (.next (latchWrite 0x68#8 (cfgA false 0x60#8)))
      = some ([.start, .write 0x4E#8, .write 0x68#8, .stop], 0x68#8, false, .ready) := by decide
/-- V-SB4's logical view: nibbles `A`, `5` in Data mode; with the lines before unknown. -/
theorem test_logical_view :
    logicalNibbles (cfgA false 0#8).pins none (nA 0xA5#8 0xA1#8 ++ nA 0x55#8 0x51#8) = [(.data, 0xA#4), (.data, 0x5#4)]
    ∧ logicalBytes (cfgA false 0#8).pins none (nA 0xA5#8 0xA1#8 ++ nA 0x55#8 0x51#8) = [(.data, 0xA5#8)] := by decide

/-! ### INIT -/

/-- V-INIT-A: the whole trace from reset. -/
theorem test_init_A :
    seen (initPlain opsA State.reset) = some
      ([.delayMs 15] ++ nA 0x34#8 0x30#8 ++ [.delayMs 5] ++ nA 0x34#8 0x30#8 ++ nA 0x34#8 0x30#8 ++ nA 0x24#8 0x20#8
        ++ nA 0x24#8 0x20#8 ++ nA 0x84#8 0x80#8 ++ nA 0x04#8 0x00#8 ++ nA 0xC4#8 0xC0#8
        ++ nA 0x04#8 0x00#8 ++ nA 0x14#8 0x10#8 ++ [.delayMs 2] ++ nA 0x04#8 0x00#8 ++ nA 0x64#8 0x60#8,
       0x60#8, false, .ready) := by decide
/-- V-INIT-R: a second INIT from `Ready` keeps the flag; last cycle `N(6C,68)`. -/
theorem test_init_R :
    (seen (initPlain opsA (cfgA true 0x68#8))).map (fun x => (x.1.length, x.1.drop 58, x.2))
      = some (63, nA 0x6C#8 0x68#8, 0x68#8, true, .ready) := by decide
/-- P5 line 2: five rows is BadOperand, and V-RF5's order: the state is named first. -/
theorem test_init_refused :
    refusal (exec (.init 16#8 5#8 0x27#8 1#8 2#8 1#8 0#8 3#8) State.reset) = some .badOperand
    ∧ refusal (exec (.init 16#8 5#8 0x27#8 1#8 2#8 1#8 0#8 3#8) (inInit .clear)) = some .notReady := by decide

/-- R92: the first force-8-bit nibble, with its wait. -/
theorem test_force8_A :
    seen (exec .force8 (inInit .force8BitA)) = some (nA 0x34#8 0x30#8 ++ [.delayMs 5], 0x30#8, false, .force8BitB) := by decide
/-- R94: the third, without. -/
theorem test_force8_C : seen (exec .force8 (inInit .force8BitC)) = some (nA 0x34#8 0x30#8, 0x30#8, false, .switch4Bit) := by decide
/-- R95. -/
theorem test_switch4 : seen (exec .switch4 (inInit .switch4Bit)) = some (nA 0x24#8 0x20#8, 0x20#8, false, .functionSet) := by decide
/-- R96. -/
theorem test_functionSet :
    seen (exec .functionSet (inInit .functionSet))
      = some (nA 0x24#8 0x20#8 ++ nA 0x84#8 0x80#8, 0x80#8, false, .displayOn) := by decide
/-- R97. -/
theorem test_displayOn :
    seen (exec .displayOn (inInit .displayOn)) = some (nA 0x04#8 0x00#8 ++ nA 0xC4#8 0xC0#8, 0xC0#8, false, .clear) := by decide
/-- R98. -/
theorem test_clear :
    seen (exec .clear (inInit .clear))
      = some (nA 0x04#8 0x00#8 ++ nA 0x14#8 0x10#8 ++ [.delayMs 2], 0x10#8, false, .entryModeSet) := by decide
/-- R99, both variants. -/
theorem test_entryMode :
    seen (.next (actEntryMode false (inInit .entryModeSet)))
      = some (nA 0x04#8 0x00#8 ++ nA 0x64#8 0x60#8, 0x60#8, false, .ready)
    ∧ (actEntryMode true (inInit .entryModeSet)).fsm = .glyphLoad := by decide
/-- V-INIT-G, one slot: slot 0 of the test ROM begins `N(44,40) N(04,00) N(05,01) N(05,01)`. -/
theorem test_glyphLoad_first :
    ((sendGlyphs (fun _ => #v[0x00#8, 0x01#8, 0x02#8, 0x03#8, 0x04#8, 0x05#8, 0x06#8, 0x07#8]) [0] (inInit .glyphLoad)).trace.take 20)
      = nA 0x44#8 0x40#8 ++ nA 0x04#8 0x00#8 ++ nA 0x05#8 0x01#8 ++ nA 0x05#8 0x01#8 := by decide +kernel

/-! ### Display control -/

/-- V-SC5: clamped, never refused. -/
theorem test_setcursor_clamp :
    seen (exec (.setcursor 255#8 255#8) (cfgA false 0x60#8))
      = some (nA 0xC4#8 0xC0#8 ++ nA 0xF4#8 0xF0#8, 0xF0#8, false, .ready) := by decide
/-- V-SC14, V-SC15, V-SC16: the sum on 8 bits, and bit 7 merging with the opcode. -/
theorem test_setcursor_wide :
    cursorByte 254#8 3#8 254#8 3#8 = 0xD2#8 ∧ cursorByte 254#8 3#8 0xAC#8 3#8 = 0x80#8
    ∧ cursorByte 254#8 3#8 0x2C#8 3#8 = 0x80#8 := by decide
/-- V-CL5: one column, two spaces. -/
theorem test_clearline_small :
    (seen (exec (.clearline 0#8) cfgC)).map (fun x => (frames x.1, x.1.length, x.2))
      = some ([0x18#8, 0x08#8, 0x10#8, 0x00#8, 0x52#8, 0x42#8, 0x50#8, 0x40#8, 0x52#8, 0x42#8, 0x50#8, 0x40#8], 30,
        0x40#8, false, .ready) := by decide
/-- V-CL3's shadow: the extra space is at `0x14`; V-CL6: 256 spaces, not reduced. -/
theorem test_clearline_count : clearCount 19#8 = 21 ∧ clearCount 254#8 = 256 ∧ 0x00 + clearCount 19#8 - 1 = 0x14 := by decide
/-- V-BL1. -/
theorem test_setbacklight_on :
    seen (exec (.setbacklight 1#8) (cfgA false 0x60#8))
      = some ([.start, .write 0x4E#8, .write 0x68#8, .stop], 0x68#8, true, .ready) := by decide
/-- V-BL4, V-BL6. -/
theorem test_setbacklight_off :
    seen (exec (.setbacklight 0#8) (cfgA true 0x19#8))
      = some ([.start, .write 0x4E#8, .write 0x11#8, .stop], 0x11#8, false, .ready)
    ∧ refusal (exec (.setbacklight 2#8) (cfgA false 0x11#8)) = some .badOperand := by decide
/-- V-LG1: the first four cycles, the last, the latch. -/
theorem test_loadglyph_B :
    (seen (exec (.loadglyph bitmapLG1 3#8) (cfgB false 0x06#8))).map (fun x => (x.1.take 20, x.1.drop 155, x.2.1))
      = some (nB 0x45#8 0x05#8 ++ nB 0x48#8 0x08#8 ++ nB 0x50#8 0x10#8 ++ nB 0x5E#8 0x1E#8, nB 0x50#8 0x10#8, 0x10#8) := by
  decide +kernel
/-- V-LG5. -/
theorem test_loadglyph_slot8 : refusal (exec (.loadglyph bitmapLG1 8#8) (cfgB false 0x06#8)) = some .badOperand := by decide

/-! ### Text -/

/-- V-PC1 and V-PC8. -/
theorem test_printchar_plain :
    seen (exec (.printchar 0x41#8) (cfgA false 0x60#8)) = some (nA 0x45#8 0x41#8 ++ nA 0x15#8 0x11#8, 0x11#8, false, .ready)
    ∧ seen (exec (.printchar 0xFF#8) (cfgA false 0x60#8))
      = some (nA 0xF5#8 0xF1#8 ++ nA 0xF5#8 0xF1#8, 0xF1#8, false, .ready) := by decide
/-- V-PC10: code 7 is a space, the backlight on. -/
theorem test_printchar_control :
    seen (exec (.printchar 0x07#8) (cfgA true 0x68#8))
      = some (nA 0x2D#8 0x29#8 ++ nA 0x0D#8 0x09#8, 0x09#8, true, .ready) := by decide
/-- V-PR3: a newline inside. -/
theorem test_print_newline :
    seen (exec (.print [0x41#8, 0x0A#8, 0x42#8]) (cfgA false 0x60#8))
      = some (nA 0x45#8 0x41#8 ++ nA 0x15#8 0x11#8 ++ nA 0x25#8 0x21#8 ++ nA 0x05#8 0x01#8
          ++ nA 0x45#8 0x41#8 ++ nA 0x25#8 0x21#8, 0x21#8, false, .ready) := by decide
/-- V-PR2: the empty string. -/
theorem test_print_empty : seen (exec (.print []) (cfgA false 0x60#8)) = some ([], 0x60#8, false, .ready) := by decide
/-- V-CE2 to V-CE9: the leading spaces. -/
theorem test_printcenter_lead :
    [leadSpaces 15#8 2, leadSpaces 15#8 5, leadSpaces 15#8 0, leadSpaces 15#8 3, leadSpaces 15#8 17, leadSpaces 15#8 15,
      leadSpaces 15#8 14, leadSpaces 19#8 2, leadSpaces 0#8 0] = [7, 5, 8, 6, 0, 0, 1, 9, 0] := by decide
/-- V-CE4, as logical bytes. -/
theorem test_printcenter_ABC :
    (seen (exec (.printcenter [0x41#8, 0x42#8, 0x43#8]) (cfgA false 0x60#8))).map
        (fun x => (logicalBytes (cfgA false 0x60#8).pins none x.1, x.2.1))
      = some (List.replicate 6 (.data, 0x20#8) ++ [(.data, 0x41#8), (.data, 0x42#8), (.data, 0x43#8)], 0x31#8) := by decide +kernel

/-! ### The bus-level and byte emissions -/

/-- The second event of every transaction of CFG-A. -/
theorem test_addrw : seen (exec (.addrw 0x27#7) (cfgA false 0x60#8)) = some ([.write 0x4E#8], 0x60#8, false, .ready) := by decide
/-- R19: a frame becomes the latch. -/
theorem test_frame : seen (exec (.frame 0x34#8) (cfgA false 0x60#8)) = some ([.write 0x34#8], 0x34#8, false, .ready) := by decide
/-- V-LG2's first command byte `C:58`. -/
theorem test_setCgram :
    seen (exec (.setCgram 3#3 0#3) (cfgA false 0x60#8))
      = some (nA 0x54#8 0x50#8 ++ nA 0x84#8 0x80#8, 0x80#8, false, .ready) := by decide
/-- V-SC2: `C:CF`. -/
theorem test_setDdram :
    seen (exec (.setDdram 0x4F#7) (cfgA false 0x60#8))
      = some (nA 0xC4#8 0xC0#8 ++ nA 0xF4#8 0xF0#8, 0xF0#8, false, .ready) := by decide
/-- V-LG3's first row, `D:FF`: no replacement, no mask. -/
theorem test_data : seen (exec (.data 0x07#8) (cfgA false 0x60#8)) = some (nA 0x05#8 0x01#8 ++ nA 0x75#8 0x71#8, 0x71#8, false, .ready) := by
  decide

/-! ### The step -/

/-- V-RF1, V-RF3, V-RF5. -/
theorem test_step_refusals :
    refusal (step { State.reset with cmd := [0x02#8, 0x00#8, 0x00#8] }) = some .notReady
    ∧ refusal (step { cfgA false 0x60#8 with cmd := [0x09#8] }) = some (.reservedOpcode 0x09#8)
    ∧ refusal (step { State.reset with cmd := [0x04#8, 0x02#8] }) = some .notReady := by decide
/-- P1 line 2 as a step: the operation and its bytes are gone, the next operation's bytes stay. -/
theorem test_step_runs :
    step { cfgA false 0x60#8 with cmd := [0x02#8, 0x00#8, 0x00#8, 0x07#8] }
      = .next { cfgA false 0x00#8 with cmd := [0x07#8], trace := nA 0x84#8 0x80#8 ++ nA 0x04#8 0x00#8 } := by rfl
/-- V-RS1: a reset while idle. -/
theorem test_step_reset_idle :
    seen (step { cfgA true 0x68#8 with cmd := [0x06#8, 0x48#8], port := [.reset] }) = some ([], 0x00#8, false, .powerWait) := by
  decide
/-- V-RS2: `PRINTCHAR(0x48)`, the reset after the third event, and after the fifth. -/
theorem test_step_reset_cuts :
    seen (step { cfgA false 0x60#8 with cmd := [0x06#8, 0x48#8], port := [.done true, .done false, .done true, .reset] })
      = some ([.start, .write 0x4E#8, .write 0x45#8], 0x00#8, false, .powerWait)
    ∧ seen (step { cfgA false 0x60#8 with
        cmd := [0x06#8, 0x48#8], port := List.replicate 5 (.done true) ++ [.reset] })
      = some (nA 0x45#8 0x41#8, 0x00#8, false, .powerWait) := by decide
/-- V-RS3: an INIT cut after `DelayMs(15) N(34,30)` leaves those six events. -/
theorem test_reset_cuts_init :
    (match initPlain opsA State.reset with
      | .next t => seen (.next (settle .powerWait { State.reset with port := List.replicate 6 (.done true) ++ [.reset] } t))
      | _ => none) = some ([.delayMs 15] ++ nA 0x34#8 0x30#8, 0x00#8, false, .powerWait) := by decide
/-- R85, R45: `PRINTCHAR(0x48)` whose third event hangs: the frame is out and in the latch, and the block waits. -/
theorem test_step_stuck :
    let o := step { cfgA false 0x60#8 with cmd := [0x06#8, 0x48#8], port := [.done true, .done false, .hang] }
    seen o = some ([.start, .write 0x4E#8, .write 0x45#8], 0x45#8, false, .ready)
    ∧ refusal o = none ∧ isWaiting o = true := by decide
/-- R45, R91: an INIT whose first event hangs is in `PowerWait`, and the configuration is written (R90); one whose seventh
event, the five milliseconds, hangs is in `Force8BitA`; with the eighth it is in `Force8BitB`. -/
theorem test_init_stuck :
    let at' := fun k => match initPlain opsA State.reset with
      | .next t => seen (.next (settle .powerWait { State.reset with port := List.replicate k (.done true) ++ [.hang] } t))
      | _ => none
    at' 0 = some ([.delayMs 15], 0x00#8, false, .powerWait)
    ∧ at' 6 = some ([.delayMs 15] ++ nA 0x34#8 0x30#8 ++ [.delayMs 5], 0x30#8, false, .force8BitA)
    ∧ at' 7 = some ([.delayMs 15] ++ nA 0x34#8 0x30#8 ++ [.delayMs 5, .start], 0x30#8, false, .force8BitB) := by decide
/-- R34, R168: after slot 7 the memory is still CGRAM and only the address is unknown; a clear command leaves DDRAM 0. -/
theorem test_landings_after_glyph :
    (landings none (glyphBytes bitmapLG1 7#8 ++ [(.data, 0x41#8), (.data, 0x42#8)])).drop 7
      = [{ ram := .cgram, addr := some 0x3F#7, value := 0x00#8 }, { ram := .cgram, addr := none, value := 0x41#8 },
        { ram := .cgram, addr := none, value := 0x42#8 }]
    ∧ cursorAfter none (glyphBytes bitmapLG1 7#8 ++ [(.command, 0x01#8)]) = some { ram := .ddram, addr := some 0#7 } := by
  decide
/-- P5 lines 1 and 2: the refused operation is withdrawn and the next one is at the port. -/
theorem test_withdraw :
    (withdraw { State.reset with cmd := [0x06#8, 0x41#8] ++ initBytesA }).cmd = initBytesA
    ∧ (withdraw { State.reset with cmd := [0xFF#8, 0x06#8] }).cmd = [0x06#8] := by decide
/-- How a table word is placed: `04 01` runs as the next step. -/
theorem test_withFetchWord :
    (seen (step ((cfgA false 0x60#8).withFetchWord 16 0x0104))).map (fun x => x.2) = some (0x68#8, true, .ready)
    ∧ isNext (step (State.reset.withFetchWord 8 0x07)) = true := by decide
/-- R153: `cmd_ready` is low inside INIT, and the ports' rendering of a WRITE and of a wait. -/
theorem test_ports :
    ((inInit .clear).cmdReady, (cfgA false 0#8).cmdReady) = (false, true)
    ∧ Event.toPort (.write 0x4E#8) = .busReq .write 0x4E#8 ∧ Event.toPort (.delayMs 15) = .dlyReq .milliseconds 15#8 := by decide

/-! ### Witnesses: the hypotheses of each statement are met -/

/-- CFG-A with the last frame of V-INIT-A in the trace: a state between operations that meets `Inv`. -/
def afterA : State := { cfgA false 0x60#8 with trace := nA 0x64#8 0x60#8 }

/-- CFG-A stuck at the third event of a PRINTCHAR. -/
def stuckA : State := { cfgA false 0x45#8 with waiting := true, trace := [.start, .write 0x4E#8, .write 0x45#8] }

theorem witness_DecodeOfEncode :
    opsTop.instr.wellFormed = true ∧ Instr.wellFormed (.setbacklight 1#8) = true
    ∧ Instr.wellFormed (.loadglyph bitmapLG1 7#8) = true ∧ Instr.wellFormed (.print []) = true
    ∧ Instr.wellFormed (.printcenter [0x01#8, 0xFF#8]) = true ∧ Instr.wellFormed (.setDdram 0x7F#7) = true := by decide
theorem witness_EncodeOfDecode :
    decodeAs .host [0x06#8, 0xFF#8, 0x09#8] = .ok (.printchar 0xFF#8) [0x09#8]
    ∧ decodeAs .addrw [0xFE#8] = .ok (.addrw 0x7F#7) [] ∧ decodeAs .frame [0xFF#8] = .ok (.frame 0xFF#8) []
    ∧ decodeAs .lcdNib [0x02#8] = .ok .switch4 [] ∧ decodeAs .lcdCmd [0xFF#8] = .ok (.setDdram 0x7F#7) []
    ∧ decodeAs .lcdData [0x00#8] = .ok (.data 0x00#8) [] := by decide
theorem witness_ReservedOpcodesRefused :
    (∀ op ∈ [0x00#8, 0x09#8, 0xFF#8], op.toNat = 0 ∨ 9 ≤ op.toNat) ∧ ({ cfgA false 0#8 with cmd := [0x09#8] } : State).cmdReady = true
    ∧ State.reset.cmdReady = true ∧ noReset [PortIn.hang] = true ∧ noReset [] = true := by decide
theorem witness_StepRunsDecodedOperation :
    (cfgA false 0#8).cmdReady = true ∧ quiet [.done false] = true ∧ decode [0x06#8, 0x41#8, 0x07#8] = .ok (.printchar 0x41#8) [0x07#8]
    ∧ (∃ t, exec (.printchar 0x41#8) { cfgA false 0#8 with cmd := [0x07#8], port := [.done false] } = .next t)
    ∧ exec (.printchar 0x41#8) { State.reset with cmd := [0x07#8], port := [.done false] } = .refused .notReady :=
  ⟨rfl, rfl, rfl, ⟨_, rfl⟩, rfl⟩
theorem witness_StepRunsFsmEmission :
    (inInit .force8BitA).fsm.emission = some .force8 ∧ (inInit .entryModeSet).fsm.emission = some .entryMode
    ∧ (inInit .clear).waiting = false ∧ quiet (inInit .clear).port = true ∧ (∃ t, exec .force8 (inInit .force8BitA) = .next t)
    ∧ ∃ t, exec .entryMode (inInit .entryModeSet) = .next t := ⟨rfl, rfl, rfl, rfl, ⟨_, rfl⟩, ⟨_, rfl⟩⟩
theorem witness_IdleBlockRests :
    State.reset.cmdReady = true ∧ noReset State.reset.port = true ∧ decode State.reset.cmd = .incomplete
    ∧ decode [0x02#8, 0x00#8] = .incomplete := by decide
theorem witness_CommandNotReadDuringInit :
    (inInit .force8BitA).cmdReady = false ∧ (inInit .glyphLoad).cmdReady = false ∧ stuckA.cmdReady = false := by decide
theorem witness_AcknowledgeIgnored :
    sameButAcks [.done true, .done false, .reset] [.done false, .done false, .reset] = true ∧ sameButAcks [] [] = true := by decide
/-- The two clauses: a step that gets stuck, and a stuck block with and without an input. -/
theorem witness_StuckOnlyByHangingEvent :
    (∃ t, step { cfgA false 0x60#8 with cmd := [0x06#8, 0x48#8], port := [.hang] } = .next t ∧ t.waiting = true)
    ∧ stuckA.waiting = true ∧ noReset stuckA.port = true ∧ noReset [PortIn.done true] = true :=
  ⟨⟨_, rfl, rfl⟩, rfl, rfl, rfl⟩
/-- The hanging event is the last of ten, and the first. -/
theorem witness_StuckState :
    (cfgA false 0#8).cmdReady = true ∧ decode [0x06#8, 0x48#8] = .ok (.printchar 0x48#8) []
    ∧ ∃ t, exec (.printchar 0x48#8) { cfgA false 0#8 with port := dones (List.replicate 9 true) ++ [.hang] } = .next t
      ∧ (List.replicate 9 true).length < t.trace.length - (cfgA false 0#8).trace.length
      ∧ ([] : List Bool).length < t.trace.length - (cfgA false 0#8).trace.length :=
  ⟨rfl, rfl, _, rfl, by decide, by decide⟩
theorem witness_ResetWins : ({ inInit .clear with port := [.reset, .hang] } : State).port = .reset :: [.hang] := rfl
/-- V-RS2: the reset after the ninth of ten events, and after the first; and the hanging event the last, and the first. -/
theorem witness_ResetCutsOperation :
    (cfgA false 0#8).cmdReady = true ∧ decode [0x06#8, 0x48#8] = .ok (.printchar 0x48#8) []
    ∧ (∃ t, exec (.printchar 0x48#8) { cfgA false 0#8 with port := dones (true :: List.replicate 8 true) ++ [.reset] } = .next t
      ∧ (List.replicate 8 true).length + 1 < t.trace.length - (cfgA false 0#8).trace.length
      ∧ ([] : List Bool).length + 1 < t.trace.length - (cfgA false 0#8).trace.length)
    ∧ ∃ t, exec (.printchar 0x48#8) { cfgA false 0#8 with port := dones (List.replicate 9 true) ++ [.hang, .reset] } = .next t
      ∧ (List.replicate 9 true).length < t.trace.length - (cfgA false 0#8).trace.length
      ∧ ([] : List Bool).length < t.trace.length - (cfgA false 0#8).trace.length :=
  ⟨rfl, rfl, ⟨_, rfl, by decide, by decide⟩, _, rfl, by decide, by decide⟩
theorem witness_ConfigUnreadBeforeInit :
    opsA.instr.format = .host ∧ State.reset.fsm = .powerWait
    ∧ ({ State.reset with nib := true, enPos := 7#3, maxCol := 0xFF#8, maxRow := 0xFF#8, addr := 0x7F#7 } : State)
      = { State.reset with nib := true, enPos := 7#3, rwPos := 0#3, rsPos := 0#3, blPos := 0#3, addr := 0x7F#7, maxCol := 0xFF#8
                           maxRow := 0xFF#8 } := ⟨rfl, rfl, rfl⟩
/-- Both example wirings are sane, for `ReadWriteLineLow`, `RecombinationLaw` and `LogicalViewOfBytes`. -/
theorem witness_sane : (cfgA false 0#8).pins.sane ∧ (cfgB true 0#8).pins.sane := by decide
theorem witness_BacklightLaws :
    Instr.format (.printchar 0x41#8) = .host ∧ (∃ t, exec (.printchar 0x41#8) (cfgA true 0x68#8) = .next t ∧ t.pins.backlightApart)
    ∧ (∃ t, exec (.setbacklight 0#8) (cfgB true 0x86#8) = .next t ∧ t.pins.backlightApart)
    ∧ (∃ t, exec (.setbacklight 1#8) (cfgA false 0x60#8) = .next t) := ⟨rfl, ⟨_, rfl, by decide⟩, ⟨_, rfl, by decide⟩, ⟨_, rfl⟩⟩
/-- For `InitNibbleRepeats` and `InitFirstAndLastNibble`. -/
theorem witness_InitNibbles :
    (inInit .force8BitA).fsm = .force8BitA ∧ (inInit .force8BitB).fsm = .force8BitB ∧ (inInit .force8BitC).fsm = .force8BitC
    ∧ (inInit .switch4Bit).fsm = .switch4Bit := by decide
theorem witness_InitByteSteps :
    (inInit .functionSet).fsm = .functionSet ∧ (inInit .displayOn).fsm = .displayOn ∧ (inInit .clear).fsm = .clear
    ∧ (inInit .entryModeSet).fsm = .entryModeSet := by decide
/-- One clause each: between operations none of the six is the action of the state, and inside INIT five are not. -/
theorem witness_InitEmissionsOutsideTheirState :
    (∀ i ∈ [Instr.force8, .switch4, .functionSet, .displayOn, .clear, .entryMode], (cfgA false 0#8).fsm.emission ≠ some i)
    ∧ (inInit .displayOn).fsm.emission ≠ some .clear ∧ (inInit .clear).fsm.emission ≠ some .force8 := by decide
/-- The smallest and the largest legal operands, from both idle states. -/
theorem witness_InitCompletes :
    opsA.legal ∧ opsTop.legal ∧ InitOperands.legal
      { columns := 1#8, rows := 1#8, busAddress := 0#8, nibbleOrder := 0#8, enableBit := 0#8, rwBit := 0#8, rsBit := 0#8
        backlightBit := 0#8 }
    ∧ State.reset.fsm = .powerWait ∧ (cfgA true 0x68#8).fsm = .ready := by decide
theorem witness_InitRefusals :
    (inInit .force8BitA).fsm.idle = false ∧ State.reset.fsm.idle = true ∧ ¬ ({ opsA with rows := 5#8 } : InitOperands).legal
    ∧ ¬ ({ opsA with columns := 0#8 } : InitOperands).legal ∧ ¬ ({ opsA with backlightBit := 8#8 } : InitOperands).legal := by decide
theorem witness_InitEventCount : ∃ t, exec opsA.instr State.reset = .next t := ⟨_, rfl⟩
theorem witness_InitIsFsmRun : opsA.legal ∧ State.reset.cmdReady = true ∧ State.reset.port = [] := by decide
/-- For the statements on display operations: `Ready`, and the row index at its smallest and its largest. -/
theorem witness_ready :
    (cfgB true 0x86#8).fsm = .ready ∧ (cfgB true 0x86#8).maxRow.toNat ≤ 3 ∧ cfgC.fsm = .ready ∧ cfgC.maxRow.toNat ≤ 3 := by decide
/-- Row 3 with 44 columns reaches address 0x7F exactly. -/
theorem witness_CursorLaw :
    let s := { cfgB false 0x06#8 with maxCol := 0x2B#8 }
    s.pins.sane ∧ s.maxRow.toNat ≤ 3 ∧ (∀ r ≤ s.maxRow.toNat, s.maxCol.toNat + rowBase r ≤ 0x7F)
    ∧ ∃ t, exec (.setcursor 0xFF#8 0xFF#8) s = .next t := ⟨by decide, by decide, by decide, _, rfl⟩
/-- The extra space of row 3 with 43 columns is at 0x7F. -/
theorem witness_ClearLineLandings :
    let s := { cfgB false 0x06#8 with maxCol := 0x2A#8 }
    s.pins.sane ∧ s.maxRow.toNat ≤ 3 ∧ s.maxCol.toNat + 1 + rowBase (min 9 s.maxRow.toNat) ≤ 0x7F
    ∧ ∃ t, exec (.clearline 9#8) s = .next t := ⟨by decide, by decide, by decide, _, rfl⟩
theorem witness_SetBacklightCompletes :
    (cfgA true 0x68#8).fsm = .ready ∧ (0#8 = 0#8 ∨ 0#8 = 1#8) ∧ (1#8 = 0#8 ∨ 1#8 = 1#8) := by decide
theorem witness_SetBacklightAgain : ∃ t, exec (.setbacklight 1#8) (cfgA false 0x60#8) = .next t := ⟨_, rfl⟩
/-- For `LoadGlyphCompletes`, `CgramAddressExact` and `GlyphLandings`: the first and the last slot. -/
theorem witness_slot : (cfgA false 0#8).fsm = .ready ∧ (0#8).toNat ≤ 7 ∧ (7#8).toNat ≤ 7 := by decide
theorem witness_TextAfterGlyphsGoesToCgram :
    (cfgA false 0#8).pins.sane ∧ ∃ t, exec (.loadglyph bitmapLG1 7#8) (cfgA false 0#8) = .next t
      ∧ ∃ u, exec (.print [0x48#8]) t = .next u := ⟨by decide, _, rfl, _, rfl⟩
theorem witness_Print : (cfgA false 0#8).fsm = .ready ∧ (∀ c ∈ [0x01#8, 0xFF#8], c ≠ 0x00#8) ∧ ∀ c ∈ ([] : List Byte), c ≠ 0x00#8 := by
  decide
theorem witness_EmissionLaws :
    (∃ t, exec (.printchar 0x00#8) (cfgA false 0#8) = .next t) ∧ (∃ t, exec (.print [0x1F#8]) (cfgB true 0#8) = .next t)
    ∧ (∃ t, exec (.printcenter []) (cfgA false 0#8) = .next t) ∧ (cfgA false 0#8).pins.sane ∧ (cfgB true 0#8).pins.sane
    ∧ (∀ c ∈ [0x41#8] ++ [0x0A#8], c ≠ 0x00#8) := ⟨⟨_, rfl⟩, ⟨_, rfl⟩, ⟨_, rfl⟩, by decide, by decide, by decide⟩
theorem witness_ExpansionsAgree : (inInit .glyphLoad).fsm = .glyphLoad ∧ (inInit .glyphLoad).waiting = false
    ∧ (inInit .glyphLoad).port = [] := by decide
theorem witness_AcceptanceExact :
    opsA.instr.format = .host ∧ acceptedIn opsA.instr .powerWait = true ∧ acceptedIn opsA.instr .ready = true
    ∧ opsA.instr.wellFormed = true ∧ acceptedIn (.setbacklight 2#8) .ready = true ∧ Instr.wellFormed (.setbacklight 2#8) = false
    ∧ acceptedIn (.setbacklight 2#8) .powerWait = false ∧ acceptedIn opsA.instr .force8BitA = false := by decide
theorem witness_HostOperationFrame :
    (∃ t, exec opsA.instr (cfgA true 0x68#8) = .next t) ∧ (∃ t, exec (.setbacklight 0#8) (cfgA true 0x68#8) = .next t)
    ∧ (∃ t, exec (.clearline 0#8) cfgC = .next t) ∧ isInit opsA.instr = true ∧ isInit (.clearline 0#8) = false
    ∧ isSetBacklight (.clearline 0#8) = false := ⟨⟨_, rfl⟩, ⟨_, rfl⟩, ⟨_, rfl⟩, rfl, rfl, rfl⟩
theorem witness_EmissionFrame :
    Instr.format .clear ≠ .host ∧ (∃ t, exec .clear (inInit .clear) = .next t) ∧ (∃ t, exec (.addrw 0#7) State.reset = .next t)
    ∧ (cfgA false 0#8).fsm.emission ≠ some .clear := ⟨by decide, ⟨_, rfl⟩, ⟨_, rfl⟩, by decide⟩
theorem witness_OnlyInitAndResetWriteConfig :
    ∃ t, step { cfgA true 0x68#8 with port := [.reset] } = .next t ∧ t.config ≠ (cfgA true 0x68#8).config := ⟨_, rfl, by decide⟩
theorem witness_OnlySetBacklightAndResetWriteFlag :
    (∃ t, step { cfgA true 0x68#8 with port := [.reset] } = .next t ∧ t.bl ≠ true)
    ∧ ∃ t, step { cfgA false 0x60#8 with cmd := [0x04#8, 0x01#8] } = .next t ∧ t.bl ≠ false := ⟨⟨_, rfl, by decide⟩, _, rfl, by decide⟩
/-- For `TraceOnlyGrows` and `TraceShapeKept`: a step of an operation and a step of INIT. -/
theorem witness_Trace :
    (∃ t, step { cfgA false 0x60#8 with cmd := [0x06#8, 0x41#8] } = .next t) ∧ (∃ t, step (inInit .clear) = .next t)
    ∧ quiet (inInit .clear).port = true := ⟨⟨_, rfl⟩, ⟨_, rfl⟩, rfl⟩
theorem witness_WaitsOnlyInInit :
    (∃ t, step { State.reset with cmd := initBytesA } = .next t) ∧ decode initBytesA = .ok opsA.instr []
    ∧ State.reset.cmdReady = true ∧ quiet State.reset.port = true := ⟨⟨_, rfl⟩, rfl, rfl, rfl⟩
/-- From reset, between operations, and from the state in which the block is stuck. -/
theorem witness_InvariantKept :
    Inv State.reset ∧ Inv afterA ∧ Inv stuckA ∧ (∃ t, step { afterA with cmd := [0x04#8, 0x01#8] } = .next t)
    ∧ (∃ t, step { afterA with cmd := initBytesA } = .next t) ∧ ∃ t, step { stuckA with port := [.reset] } = .next t :=
  ⟨by decide, by decide, by decide, ⟨_, rfl⟩, ⟨_, rfl⟩, _, rfl⟩

end Sys2Proof.Tests
end

section
/-! The bits of a frame at a position of the pin map (spec 40_transfer_primitives R80; 10_state R12 to R15). -/

namespace Sys2Proof.Machine

theorem bit_getLsbD_pos (p q : Pos) : (bit p).getLsbD q.toNat = decide (q = p) := by
  rw [bit_getLsbD p _ q.isLt, decide_eq_decide, BitVec.toNat_inj]

theorem backlightBits_getLsbD_pos (p q : Pos) (bl : Bool) :
    (backlightBits p bl).getLsbD q.toNat = (bl && decide (q = p)) := by
  cases bl <;> simp [backlightBits, bit_getLsbD_pos]

/-- What a frame carries before the enable bit is set or cleared. -/
theorem frameOut_getLsbD (pm : PinMap) (bl : Bool) (p : Byte) (m : Mode) (q : Pos) :
    (frameOut pm bl p m).getLsbD q.toNat
      = ((pm.onDataLine q && p.getLsbD q.toNat) || (decide (m = .data) && decide (q = pm.rsPos))
        || (bl && decide (q = pm.blPos))) := by
  cases m <;>
    simp [frameOut, PinMap.onDataLine, backlightBits_getLsbD_pos, bit_getLsbD_pos, Bool.and_comm (p.getLsbD _)]

theorem frameHi_getLsbD (pm : PinMap) (bl : Bool) (p : Byte) (m : Mode) (q : Pos) :
    (frameHi pm bl p m).getLsbD q.toNat = ((frameOut pm bl p m).getLsbD q.toNat || decide (q = pm.enPos)) := by
  simp [frameHi, bit_getLsbD_pos]

theorem frameLo_getLsbD (pm : PinMap) (bl : Bool) (p : Byte) (m : Mode) (q : Pos) :
    (frameLo pm bl p m).getLsbD q.toNat = ((frameOut pm bl p m).getLsbD q.toNat && !decide (q = pm.enPos)) := by
  have hq : q.toNat < 8 := q.isLt
  simp only [frameLo, BitVec.getLsbD_and, BitVec.getLsbD_not, bit_getLsbD_pos, hq, decide_true, Bool.true_and]

/-- The second frame of an enable cycle has the enable line low. -/
theorem frameLo_enPos (pm : PinMap) (bl : Bool) (p : Byte) (m : Mode) :
    (frameLo pm bl p m).getLsbD pm.enPos.toNat = false := by
  simp [frameLo_getLsbD]

/-- The second frame carries the flag where nothing else stands at `BL_POS` (R114). -/
theorem frameLo_blPos (pm : PinMap) (bl : Bool) (p : Byte) (m : Mode) (h : pm.backlightApart) :
    (frameLo pm bl p m).getLsbD pm.blPos.toNat = bl := by
  obtain ⟨hen, hrs, hdata⟩ := h
  simp [frameLo_getLsbD, frameOut_getLsbD, hen, hrs, hdata]

/-- The recomputed latch at a position (R112). -/
theorem relight_getLsbD (latch : Byte) (p : Pos) (bl : Bool) (q : Pos) :
    (relight latch p bl).getLsbD q.toNat = if q = p then bl else latch.getLsbD q.toNat := by
  have hq : q.toNat < 8 := q.isLt
  simp only [relight, BitVec.getLsbD_or, BitVec.getLsbD_and, BitVec.getLsbD_not, backlightBits_getLsbD_pos,
    bit_getLsbD_pos, hq, decide_true, Bool.true_and]
  by_cases h : q = p <;> simp [h]

/-- Settles O19: at `RW_POS` neither a data line, nor the register-select, backlight or enable bit stands. -/
theorem readWriteLineLow : Obligations.ReadWriteLineLow := by
  intro pm bl p m hs
  obtain ⟨hen, -, -, hrs, hbl, -, -, hdata, -, -⟩ := hs
  have hout : (frameOut pm bl p m).getLsbD pm.rwPos.toNat = false := by
    simp [frameOut_getLsbD, hrs, hbl, hdata]
  constructor
  · simp [frameHi_getLsbD, hout, hen.symm]
  · simp [frameLo_getLsbD, hout]

end Sys2Proof.Machine
end

section
/-! The shape of event lists (spec 10_state R26 item 5) and the frames the expander takes from them (R25). -/

namespace Sys2Proof.Machine

theorem shaped_append {a : Byte} {xs ys : List Event} (hx : shaped a xs = true) (hy : shaped a ys = true) :
    shaped a (xs ++ ys) = true := by
  fun_induction shaped a xs with
  | case1 => exact hy
  | case2 n es ih => simpa [shaped] using ih hx
  | case3 b f g es ih => simp_all [shaped]
  | case4 b f es ih => simp_all [shaped]
  | case5 es => simp at hx

theorem shaped_nibbleEvents (w : Wiring) (p : Byte) (m : Mode) :
    shaped (addrwByte w.addr) (nibbleEvents w p m) = true := by
  simp [nibbleEvents, enableCycle, shaped]

theorem shaped_bareWrite (a x : Byte) : shaped a (bareWrite a x) = true := by
  simp [bareWrite, shaped]

theorem framesFrom_append (p : BusPhase) (xs ys : List Event) :
    framesFrom p (xs ++ ys) = framesFrom p xs ++ framesFrom (xs.foldl BusPhase.after p) ys := by
  induction xs generalizing p with
  | nil => cases p <;> rfl
  | cons e xs ih => cases p <;> cases e <;> simp [framesFrom, BusPhase.after, ih]

theorem framesFrom_enableCycle (p : BusPhase) (a hi lo : Byte) :
    framesFrom p (enableCycle a hi lo) = [hi, lo] := by
  cases p <;> rfl

theorem framesFrom_bareWrite (p : BusPhase) (a x : Byte) : framesFrom p (bareWrite a x) = [x] := by
  cases p <;> rfl

theorem framesFrom_delayMs (p : BusPhase) (n : Nat) : framesFrom p [.delayMs n] = [] := by
  cases p <;> rfl

/-- After an enable cycle the expander holds its second frame, whatever came before. -/
theorem expanderLines_append_nibbleEvents (es : List Event) (w : Wiring) (p : Byte) (m : Mode) :
    expanderLines (es ++ nibbleEvents w p m) = some (frameLo w.pins w.bl p m) := by
  simp [expanderLines, frames, framesFrom_append, nibbleEvents, framesFrom_enableCycle]

theorem expanderLines_append_bareWrite (es : List Event) (a x : Byte) :
    expanderLines (es ++ bareWrite a x) = some x := by
  simp [expanderLines, frames, framesFrom_append, framesFrom_bareWrite]

theorem expanderLines_append_delayMs (es : List Event) (n : Nat) :
    expanderLines (es ++ [.delayMs n]) = expanderLines es := by
  simp [expanderLines, frames, framesFrom_append, framesFrom_delayMs]

end Sys2Proof.Machine
end

section
/-! What the operations are made of: enable cycles, waits and moves of the FSM (spec 40_transfer_primitives R80, R82;
41_init_fsm R91 to R102). Every fact about them all is proved by one induction over `Transfers`. -/

namespace Sys2Proof.Machine

/-- `t` is reached from `s` by enable cycles, waits and moves of the FSM. -/
inductive Transfers (s : State) : State → Prop
  | none : Transfers s s
  | nibble {t : State} (p : Byte) (m : Mode) : Transfers s t → Transfers s (sendNibble p m t)
  | wait {t : State} (n : Nat) : Transfers s t → Transfers s (delayMs n t)
  | move {t : State} (f : Fsm) : Transfers s t → Transfers s (t.setFsm f)

namespace Transfers
variable {s t : State}

/-! The operations of INIT and the logical bytes are such. -/

theorem byte (h : Transfers s t) (v : Byte) (m : Mode) : Transfers s (sendByte v m t) :=
  (h.nibble _ _).nibble _ _

theorem afterBytes (s : State) (bs : List (Mode × Byte)) : Transfers s (s.afterBytes bs) := by
  induction bs using List.reverseRecOn with
  | nil => rw [afterBytes_nil]; exact .none
  | append_singleton bs b ih =>
    rw [← afterBytes_append, ← sendByte_eq]
    exact ih.byte _ _

theorem advance (h : Transfers s t) (src dst : Fsm) : Transfers s (Machine.advance src dst t) := by
  unfold Machine.advance
  split
  · exact h.move _
  · exact h

theorem force8 (h : Transfers s t) : Transfers s (actForce8 t) := by
  have hn : Transfers s (sendForce8 t) := h.nibble _ _
  unfold actForce8
  split
  · exact (hn.wait _).move _
  · exact hn.move _
  · exact hn.move _
  · exact hn

theorem switch4 (h : Transfers s t) : Transfers s (actSwitch4 t) := (h.nibble _ _).advance _ _

theorem functionSet (h : Transfers s t) : Transfers s (actFunctionSet t) := (h.byte _ _).advance _ _

theorem displayOn (h : Transfers s t) : Transfers s (actDisplayOn t) := (h.byte _ _).advance _ _

theorem clear (h : Transfers s t) : Transfers s (actClear t) := ((h.byte _ _).wait _).advance _ _

theorem entryMode (h : Transfers s t) (glyphs : Bool) : Transfers s (actEntryMode glyphs t) :=
  (h.byte _ _).advance _ _

theorem glyphRows (h : Transfers s t) (rows : List Byte) (cmd : Byte) : Transfers s (sendGlyphRows rows cmd t) := by
  induction rows generalizing cmd t with
  | nil => exact h
  | cons row rows ih => exact ih ((h.byte _ _).byte _ _) _

theorem glyphs (h : Transfers s t) (rom : Fin 8 → Bitmap) (slots : List (Fin 8)) :
    Transfers s (sendGlyphs rom slots t) := by
  induction slots generalizing t with
  | nil => exact h
  | cons k ks ih => exact ih (h.glyphRows _ _)

theorem glyphLoad (h : Transfers s t) (rom : Fin 8 → Bitmap) : Transfers s (actGlyphLoad rom t) :=
  (h.glyphs _ _).move _

/-- INIT from its first enable cycle on. -/
theorem runInit (h : Transfers s (sendForce8 (actPowerWait t))) (glyphs : Bool) (rom : Fin 8 → Bitmap) :
    Transfers s (Machine.runInit glyphs rom t) := by
  have hA : Transfers s (actForce8 (actPowerWait t)) := (h.wait _).move _
  have h9 := hA.force8.force8.switch4.functionSet.displayOn.clear.entryMode glyphs
  unfold Machine.runInit
  split
  · exact h9.glyphLoad rom
  · exact h9

/-! What all transfers keep, append and leave in the latch. -/

theorem keeps (h : Transfers s t) :
    t.config = s.config ∧ t.bl = s.bl ∧ t.cmd = s.cmd ∧ t.port = s.port ∧ t.waiting = s.waiting := by
  induction h with
  | none => exact ⟨rfl, rfl, rfl, rfl, rfl⟩
  | nibble _ _ _ ih => rw [sendNibble_eq]; exact ih
  | wait _ _ ih => exact ih
  | move _ _ ih => exact ih

theorem config_eq (h : Transfers s t) : t.config = s.config := h.keeps.1

theorem bl_eq (h : Transfers s t) : t.bl = s.bl := h.keeps.2.1

end Transfers

/-- From `s` to `t` waits and closed transactions have been appended to the trace, each behind the address byte of `t`
(R26 item 5). -/
def AppendsShaped (s t : State) : Prop :=
  ∃ es, t.trace = s.trace ++ es ∧ shaped (addrwByte t.addr) es = true

theorem AppendsShaped.refl (s : State) : AppendsShaped s s := ⟨[], by simp, rfl⟩

theorem AppendsShaped.trace_grows {s t : State} (h : AppendsShaped s t) : ∃ es, t.trace = s.trace ++ es :=
  let ⟨es, htrace, _⟩ := h
  ⟨es, htrace⟩

/-- One more shaped list of events, the address kept. -/
theorem AppendsShaped.append {s t u : State} {es : List Event} (h : AppendsShaped s t) (ha : u.addr = t.addr)
    (hu : u.trace = t.trace ++ es) (hes : shaped (addrwByte t.addr) es = true) : AppendsShaped s u := by
  obtain ⟨before, htrace, hbefore⟩ := h
  exact ⟨before ++ es, by rw [hu, htrace, List.append_assoc], by rw [ha]; exact shaped_append hbefore hes⟩

theorem Transfers.appendsShaped {s t : State} (h : Transfers s t) : AppendsShaped s t := by
  induction h with
  | none => exact .refl s
  | @nibble t p m _ ih =>
    rw [sendNibble_eq]
    exact ih.append rfl rfl (shaped_nibbleEvents t.wiring p m)
  | wait n _ ih => exact ih.append rfl rfl (by simp [shaped])
  | move f _ ih => exact ih

/-- The latch between operations (R26 items 3, 4): it is the last frame written, its enable bit is low unless the
backlight shares the position and is on, and its backlight bit is the flag where the position is apart. -/
def LatchSettled (s : State) : Prop :=
  expanderLines s.trace = some s.latch
    ∧ (s.latch.getLsbD s.enPos.toNat = true → s.blPos = s.enPos ∧ s.bl = true)
    ∧ (s.pins.backlightApart → s.latch.getLsbD s.blPos.toNat = s.bl)

/-- An enable cycle settles the latch whatever it was: its second frame has the enable bit cleared. -/
theorem latchSettled_sendNibble (p : Byte) (m : Mode) (s : State) : LatchSettled (sendNibble p m s) := by
  rw [sendNibble_eq]
  have hlow : (frameLo s.pins s.bl p m).getLsbD s.enPos.toNat = false := frameLo_enPos s.pins s.bl p m
  exact ⟨expanderLines_append_nibbleEvents _ _ _ _, by simp [hlow], frameLo_blPos s.pins s.bl p m⟩

/-- SETBACKLIGHT (R112): the flag is stored and the recomputed latch written bare. -/
theorem setBacklight_eq (on : Byte) (s : State) :
    setBacklight on s = { s with
      bl := onFlag on
      latch := relight s.latch s.blPos (onFlag on)
      trace := s.trace ++ bareWrite (addrwByte s.addr) (relight s.latch s.blPos (onFlag on)) } := by
  rw [setBacklight, latchWrite_eq]
  rfl

/-- SETBACKLIGHT rewrites the backlight bit alone (R112). -/
theorem latchSettled_setBacklight {s : State} (on : Byte) (h : LatchSettled s) : LatchSettled (setBacklight on s) := by
  obtain ⟨-, henable, -⟩ := h
  rw [setBacklight_eq]
  refine ⟨expanderLines_append_bareWrite _ _ _, ?enable, ?backlight⟩
  case enable =>
    change (relight s.latch s.blPos (onFlag on)).getLsbD s.enPos.toNat = true → s.blPos = s.enPos ∧ onFlag on = true
    rw [relight_getLsbD]
    split
    next heq => exact fun hon => ⟨heq.symm, hon⟩
    next hne => exact fun hlit => absurd (henable hlit).1.symm hne
  case backlight =>
    intro _
    change (relight s.latch s.blPos (onFlag on)).getLsbD s.blPos.toNat = onFlag on
    simp [relight_getLsbD]

theorem Transfers.latchSettled {s t : State} (h : Transfers s t) (hs : LatchSettled s) : LatchSettled t := by
  induction h with
  | none => exact hs
  | @nibble t p m _ _ => exact latchSettled_sendNibble p m t
  | @wait t n _ ih =>
    obtain ⟨hlines, hbits⟩ := ih
    exact ⟨(expanderLines_append_delayMs _ _).trans hlines, hbits⟩
  | move f _ ih => exact ih

end Sys2Proof.Machine
end

section
/-! What a host operation, and an FSM action of a running INIT, can do, said once. -/

namespace Sys2Proof.Machine

/-- The command port answers host operations only (R70). -/
theorem format_of_decode {bs rest : List Byte} {i : Instr} (h : decode bs = .ok i rest) : i.format = .host := by
  unfold decode at h
  repeat' split at h
  all_goals cases h <;> rfl

/-- INIT ends in `Ready` in either variant, whatever the FSM was: step 1 writes it (R91, R101). -/
theorem runInit_fsm (glyphs : Bool) (rom : Fin 8 → Bitmap) (s : State) : (runInit glyphs rom s).fsm = .ready := by
  cases glyphs <;> rfl

theorem runInit_transfers (glyphs : Bool) (rom : Fin 8 → Bitmap) (s : State) : Transfers s (runInit glyphs rom s) :=
  .runInit (((Transfers.none.wait _).move _).nibble _ _) glyphs rom

theorem latchSettled_runInit (glyphs : Bool) (rom : Fin 8 → Bitmap) (s : State) :
    LatchSettled (runInit glyphs rom s) :=
  (Transfers.runInit .none glyphs rom).latchSettled (latchSettled_sendNibble _ _ _)

theorem initWith_next {glyphs : Bool} {rom : Fin 8 → Bitmap} {c r a n e w k b : Byte} {s t : State}
    (h : initWith glyphs rom c r a n e w k b s = .next t) :
    s.fsm.idle = true ∧ initLegal c r a n e w k b = true
      ∧ t = runInit glyphs rom (configure c r a n e w k b s) := by
  unfold initWith at h
  split at h
  next hidle =>
    split at h
    next hlegal => exact ⟨hidle, hlegal, by simpa using h.symm⟩
    next => cases h
  next => cases h

/-- What a host operation that completes has done (R90, R112, R110 to R122): INIT has written the configuration and run;
SETBACKLIGHT has rewritten the latch; every other one has sent some logical bytes. -/
inductive HostEffect (i : Instr) (s t : State) : Prop
  | init (c r a n e w k b : Byte) (instr : i = .init c r a n e w k b) (idle : s.fsm.idle = true)
      (legal : initLegal c r a n e w k b = true)
      (effect : t = runInit Config.hasGlyphs Config.glyphRom (configure c r a n e w k b s))
  | setbacklight (on : Byte) (instr : i = .setbacklight on) (ready : s.fsm = .ready) (effect : t = setBacklight on s)
  | bytes (bs : List (Mode × Byte)) (noInit : isInit i = false) (noBacklight : isSetBacklight i = false)
      (ready : s.fsm = .ready) (effect : t = s.afterBytes bs)

theorem setCursor_eq (column row : Byte) (s : State) :
    setCursor column row s = s.afterBytes [(.command, cursorByte s.maxCol s.maxRow column row)] := by
  rw [setCursor, sendByte_eq]

theorem clearLine_eq (row : Byte) (s : State) :
    clearLine row s = s.afterBytes ((.command, cursorByte s.maxCol s.maxRow 0x00#8 row)
      :: (List.replicate (clearCount s.maxCol) Config.space).map fun b => (.data, b)) := by
  rw [clearLine, sendDataBytes_eq, setCursor_eq, afterBytes_append, List.singleton_append]

theorem printCenter_eq (text : List Byte) (s : State) :
    printCenter text s
      = s.afterBytes (((List.replicate (leadSpaces s.maxCol text.length) Config.space).map fun b => (.data, b))
        ++ text.map fun c => (.data, san c)) := by
  rw [printCenter, printText_eq, sendDataBytes_eq, afterBytes_append]

/-- A display operation whose effect is some logical bytes. -/
theorem hostEffect_of_whenReady {i : Instr} {legal : Bool} {f : State → State} {s t : State} (bs : List (Mode × Byte))
    (hi : isInit i = false) (hb : isSetBacklight i = false) (hf : f s = s.afterBytes bs)
    (h : whenReady legal f s = .next t) : HostEffect i s t := by
  obtain ⟨hready, -, ht⟩ := whenReady_next.1 h
  exact .bytes bs hi hb hready (ht.trans hf)

theorem exists_operands_of_isInit {i : Instr} (h : isInit i = true) : ∃ o : InitOperands, i = o.instr := by
  cases i with
  | init c r a n e w k b => exact ⟨⟨c, r, a, n, e, w, k, b⟩, rfl⟩
  | _ => cases h

/-- The inversion of `exec` for host operations: later proofs cite it and unfold none of them. -/
theorem hostEffect_of_exec {i : Instr} {s t : State} (hi : i.format = .host) (h : exec i s = .next t) :
    HostEffect i s t := by
  cases i with
  | init c r a n e w k b =>
    obtain ⟨hidle, hlegal, ht⟩ := initWith_next h
    exact .init c r a n e w k b rfl hidle hlegal ht
  | setbacklight on =>
    obtain ⟨hready, -, ht⟩ := whenReady_next.1 h
    exact .setbacklight on rfl hready ht
  | setcursor c r => exact hostEffect_of_whenReady _ rfl rfl (setCursor_eq c r s) h
  | clearline r => exact hostEffect_of_whenReady _ rfl rfl (clearLine_eq r s) h
  | loadglyph bitmap slot => exact hostEffect_of_whenReady _ rfl rfl (sendGlyphRows_eq _ _ _) h
  | printchar c => exact hostEffect_of_whenReady _ rfl rfl (sendByte_eq _ _ _) h
  | print text => exact hostEffect_of_whenReady _ rfl rfl (printText_eq _ _) h
  | printcenter text => exact hostEffect_of_whenReady _ rfl rfl (printCenter_eq text s) h
  | _ => cases hi

namespace HostEffect
variable {i : Instr} {s t : State}

theorem appendsShaped (h : HostEffect i s t) : AppendsShaped s t := by
  rcases h with ⟨c, r, a, n, e, w, k, b, -, -, -, rfl⟩ | ⟨on, -, -, rfl⟩ | ⟨bs, -, -, -, rfl⟩
  · obtain ⟨es, htrace, hes⟩ :=
      (runInit_transfers Config.hasGlyphs Config.glyphRom (configure c r a n e w k b s)).appendsShaped
    exact ⟨es, htrace, hes⟩
  · rw [setBacklight_eq]
    exact (AppendsShaped.refl s).append rfl rfl (shaped_bareWrite _ _)
  · exact (Transfers.afterBytes s bs).appendsShaped

/-- No host operation touches the inputs or the wait (R21). -/
theorem inputs_eq (h : HostEffect i s t) : t.cmd = s.cmd ∧ t.port = s.port ∧ t.waiting = s.waiting := by
  rcases h with ⟨c, r, a, n, e, w, k, b, -, -, -, rfl⟩ | ⟨on, -, -, rfl⟩ | ⟨bs, -, -, -, rfl⟩
  · obtain ⟨-, -, hinputs⟩ := (runInit_transfers _ _ _).keeps
    exact hinputs
  · simp [setBacklight_eq]
  · obtain ⟨-, -, hinputs⟩ := (Transfers.afterBytes s bs).keeps
    exact hinputs

/-- The configuration and the FSM are INIT's alone (R21). -/
theorem config_eq (h : HostEffect i s t) (hi : isInit i = false) : t.config = s.config ∧ t.fsm = s.fsm := by
  rcases h with ⟨c, r, a, n, e, w, k, b, rfl, -, -, -⟩ | ⟨on, -, -, rfl⟩ | ⟨bs, -, -, -, rfl⟩
  · cases hi
  · rw [setBacklight_eq]
    exact ⟨rfl, rfl⟩
  · exact ⟨(Transfers.afterBytes s bs).config_eq, afterBytes_fsm s bs⟩

/-- The flag is SETBACKLIGHT's alone (R18, D10). -/
theorem bl_eq (h : HostEffect i s t) (hi : isSetBacklight i = false) : t.bl = s.bl := by
  rcases h with ⟨c, r, a, n, e, w, k, b, -, -, -, rfl⟩ | ⟨on, rfl, -, -⟩ | ⟨bs, -, -, -, rfl⟩
  · exact (runInit_transfers _ _ _).bl_eq
  · cases hi
  · exact (Transfers.afterBytes s bs).bl_eq

theorem ready_of_isSetBacklight (h : HostEffect i s t) (hi : isSetBacklight i = true) :
    ∃ on, s.fsm = .ready ∧ i = .setbacklight on := by
  rcases h with ⟨c, r, a, n, e, w, k, b, rfl, -, -, -⟩ | ⟨on, rfl, hready, -⟩ | ⟨bs, -, hno, -, -⟩
  · cases hi
  · exact ⟨on, hready, rfl⟩
  · rw [hno] at hi
    cases hi

/-- Every host operation ends in `Ready` (R101, R140). -/
theorem fsm_ready (h : HostEffect i s t) : t.fsm = .ready := by
  rcases h with ⟨c, r, a, n, e, w, k, b, -, -, -, rfl⟩ | ⟨on, -, hready, rfl⟩ | ⟨bs, -, -, hready, rfl⟩
  · exact runInit_fsm _ _ _
  · rw [setBacklight_eq]
    exact hready
  · rw [afterBytes_fsm]
    exact hready

end HostEffect

/-- Settles O49, from the inversion `hostEffect_of_exec`. -/
theorem hostOperationFrame : Obligations.HostOperationFrame := by
  intro i s t hi hx
  have h := hostEffect_of_exec hi hx
  obtain ⟨hcmd, hport, hwaiting⟩ := h.inputs_eq
  exact ⟨hcmd, hport, hwaiting, h.appendsShaped.trace_grows, h.config_eq, h.bl_eq, fun _ => h.fsm_ready⟩

/-- The two idle states have no action of their own (R91, R101). -/
theorem fsmAction_of_idle {s : State} (h : s.fsm.idle = true) : fsmAction s = none := by
  unfold fsmAction
  split <;> simp_all [Fsm.idle]

/-- The action of an FSM state of a running INIT is made of transfers (R92 to R100). -/
theorem fsmAction_transfers {s t : State} (h : fsmAction s = some (.next t)) : Transfers s t := by
  unfold fsmAction at h
  split at h <;> cases h
  · exact Transfers.none.force8
  · exact Transfers.none.force8
  · exact Transfers.none.force8
  · exact Transfers.none.switch4
  · exact Transfers.none.functionSet
  · exact Transfers.none.displayOn
  · exact Transfers.none.clear
  · exact Transfers.none.entryMode _
  · exact Transfers.none.glyphLoad _

end Sys2Proof.Machine
end

section
/-! What the ports make of an operation (spec 40_transfer_primitives R85, 70_reset_and_hazards R151), and the
whole-machine rules. -/

namespace Sys2Proof.Machine

/-- A cut operation has met a reset. -/
theorem reset_mem_of_carry_cut {n k : Nat} {ins rest : List PortIn} (h : carry n ins = .cut k rest) :
    .reset ∈ ins := by
  fun_induction carry n ins generalizing k rest with
  | case1 => cases h
  | case2 => cases h
  | case3 n ack ins ih =>
    cases hc : carry n ins with
    | cut j left => exact List.mem_cons_of_mem _ (ih hc)
    | all left => simp [hc, Carried.after] at h
    | hung j left => simp [hc, Carried.after] at h
  | case4 => simp
  | case5 => cases h

/-- Unless a reset is among the inputs, an operation leaves the configuration and the flag it computes, stuck or not. -/
theorem settle_config_bl (f : Fsm) (s t : State) :
    .reset ∈ s.port ∨ (settle f s t).config = t.config ∧ (settle f s t).bl = t.bl := by
  unfold settle
  split
  next => exact .inr ⟨rfl, rfl⟩
  next hcut => exact .inl (reset_mem_of_carry_cut hcut)
  next => exact .inr ⟨rfl, rfl⟩

/-- What an operation has appended stays in part or whole, whatever the ports make of it. -/
theorem settle_trace_grows (f : Fsm) {s t : State} (h : ∃ es, t.trace = s.trace ++ es) :
    ∃ es, (settle f s t).trace = s.trace ++ es := by
  obtain ⟨es, htrace⟩ := h
  rcases settle_cases f s t with ⟨rest, heq⟩ | ⟨k, rest, heq⟩ | ⟨k, rest, heq⟩ <;> rw [heq]
  · exact ⟨es, htrace⟩
  · exact ⟨es.take k, by simp [htrace, List.take_append]⟩
  · exact ⟨_, rfl⟩

/-- Settles O53, over the cases of a step. -/
theorem traceOnlyGrows : Obligations.TraceOnlyGrows := by
  refine ⟨rfl, fun s t h => ?_⟩
  have hsame : ∃ es, s.trace = s.trace ++ es := ⟨[], by simp⟩
  rcases step_next h with ⟨ins, -, rfl⟩ | ⟨-, rfl⟩ | ⟨u, -, ha, rfl⟩ | ⟨i, rest, u, -, hd, hx, rfl⟩ | ⟨-, rfl⟩
  · exact hsame
  · exact hsame
  · exact settle_trace_grows _ (fsmAction_transfers ha).appendsShaped.trace_grows
  · exact settle_trace_grows _ (hostEffect_of_exec (format_of_decode hd) hx).appendsShaped.trace_grows
  · exact hsame

/-- Settles O54, over the cases of a step: a quiet environment lets every operation complete. -/
theorem traceShapeKept : Obligations.TraceShapeKept := by
  intro s t hq h
  rcases step_next h with ⟨ins, hp, -⟩ | ⟨-, rfl⟩ | ⟨u, -, ha, rfl⟩ | ⟨i, rest, u, -, hd, hx, rfl⟩ | ⟨-, rfl⟩
  · simp [hp, quiet] at hq
  · exact AppendsShaped.refl s
  · rw [settle_quiet _ _ _ hq]
    exact (fsmAction_transfers ha).appendsShaped
  · rw [settle_quiet _ _ _ hq]
    exact (hostEffect_of_exec (format_of_decode hd) hx).appendsShaped
  · exact AppendsShaped.refl _

/-- Without a reset among the inputs a step leaves the configuration and the flag as they were, or as a host operation of
the command port writes them. -/
theorem step_config_bl {s t : State} (h : step s = .next t) :
    .reset ∈ s.port ∨ (t.config = s.config ∧ t.bl = s.bl)
    ∨ ∃ i rest u, s.cmdReady = true ∧ decode s.cmd = .ok i rest ∧ HostEffect i { s with cmd := rest } u
        ∧ t.config = u.config ∧ t.bl = u.bl := by
  rcases step_next h with ⟨ins, hp, -⟩ | ⟨-, rfl⟩ | ⟨u, -, ha, rfl⟩ | ⟨i, rest, u, hc, hd, hx, rfl⟩ | ⟨-, rfl⟩
  · exact .inl (by simp [hp])
  · exact .inr (.inl ⟨rfl, rfl⟩)
  · have hu := fsmAction_transfers ha
    exact (settle_config_bl s.fsm s u).imp_right fun ⟨hconfig, hbl⟩ =>
      .inl ⟨hconfig.trans hu.config_eq, hbl.trans hu.bl_eq⟩
  · exact (settle_config_bl (startFsm s.fsm i) s u).imp_right fun hkept =>
      .inr ⟨i, rest, u, hc, hd, hostEffect_of_exec (format_of_decode hd) hx, hkept⟩
  · exact .inr (.inl ⟨rfl, rfl⟩)

/-- Settles O51: of the operations INIT alone writes the configuration. -/
theorem onlyInitAndResetWriteConfig : Obligations.OnlyInitAndResetWriteConfig := by
  intro s t h hne
  refine (step_config_bl h).imp_right ?_
  rintro (⟨hconfig, -⟩ | ⟨i, rest, u, hc, hd, heffect, hconfig, -⟩)
  · exact absurd hconfig hne
  · cases hi : isInit i with
    | false => exact absurd (hconfig.trans (heffect.config_eq hi).1) hne
    | true =>
      obtain ⟨o, rfl⟩ := exists_operands_of_isInit hi
      exact ⟨o, rest, hc, hd⟩

/-- Settles O52: of the operations SETBACKLIGHT alone writes the flag, and only in `Ready`. -/
theorem onlySetBacklightAndResetWriteFlag : Obligations.OnlySetBacklightAndResetWriteFlag := by
  intro s t h hne
  refine (step_config_bl h).imp_right ?_
  rintro (⟨-, hbl⟩ | ⟨i, rest, u, hc, hd, heffect, -, hbl⟩)
  · exact absurd hbl hne
  · cases hi : isSetBacklight i with
    | false => exact absurd (hbl.trans (heffect.bl_eq hi)) hne
    | true =>
      obtain ⟨on, hready, rfl⟩ := heffect.ready_of_isSetBacklight hi
      exact ⟨on, rest, hc, hready, hd⟩

end Sys2Proof.Machine
end

section
/-! The invariant between operations (spec 10_state R26 items 1 to 4). -/

namespace Sys2Proof.Machine

/-- The range of the geometry registers once INIT has written them (R17, R26 item 2). -/
def GeometryInRange (s : State) : Prop := s.maxRow.toNat ≤ 3 ∧ s.maxCol.toNat ≤ 254

theorem geometryInRange_congr {s t : State} (h : t.config = s.config) : GeometryInRange t ↔ GeometryInRange s := by
  simp only [State.config, Prod.mk.injEq] at h
  obtain ⟨-, -, hcol, hrow⟩ := h
  rw [GeometryInRange, hcol, hrow, GeometryInRange]

/-- INIT writes a geometry in range where its operands are legal (R57, R90). -/
theorem configure_geometryInRange {c r a n e w k b : Byte} (s : State) (h : initLegal c r a n e w k b = true) :
    GeometryInRange (configure c r a n e w k b s) := by
  simp only [initLegal, Bool.and_eq_true, decide_eq_true_eq] at h
  simp only [GeometryInRange, configure]
  bv_omega

theorem inv_of_powerWait {s : State} (hw : s.waiting = false) (hf : s.fsm = .powerWait) : Inv s := by
  simp [Inv, hw, hf, Fsm.idle]

theorem inv_of_waiting {s : State} (hw : s.waiting = true) (hg : GeometryInRange s) : Inv s := by
  simpa [Inv, hw, GeometryInRange] using hg

theorem inv_of_ready {s : State} (hf : s.fsm = .ready) (hg : GeometryInRange s) (hl : LatchSettled s) : Inv s :=
  ⟨fun _ => by simp [hf, Fsm.idle], fun _ => hg, fun _ _ => hl⟩

/-- Settles O57: of a block in `PowerWait` the invariant asks nothing more. -/
theorem invariantAtReset : Obligations.InvariantAtReset := inv_of_powerWait rfl rfl

/-- A host operation leaves the geometry in range: INIT by its legal operands, every other one as it found it. -/
theorem HostEffect.geometryInRange {i : Instr} {s t : State} (h : HostEffect i s t)
    (hs : s.fsm = .ready → GeometryInRange s) : GeometryInRange t := by
  rcases h with ⟨c, r, a, n, e, w, k, b, -, -, hlegal, rfl⟩ | ⟨on, -, hready, rfl⟩ | ⟨bs, -, -, hready, rfl⟩
  · have hconfig := (runInit_transfers Config.hasGlyphs Config.glyphRom (configure c r a n e w k b s)).config_eq
    exact (geometryInRange_congr hconfig).2 (configure_geometryInRange s hlegal)
  · rw [setBacklight_eq]
    exact hs hready
  · exact (geometryInRange_congr (Transfers.afterBytes s bs).config_eq).2 (hs hready)

/-- A host operation leaves the latch settled: INIT whatever it was, every other one from a settled latch. -/
theorem HostEffect.latchSettled {i : Instr} {s t : State} (h : HostEffect i s t)
    (hs : s.fsm = .ready → LatchSettled s) : LatchSettled t := by
  rcases h with ⟨c, r, a, n, e, w, k, b, -, -, -, rfl⟩ | ⟨on, -, hready, rfl⟩ | ⟨bs, -, -, hready, rfl⟩
  · exact latchSettled_runInit _ _ _
  · exact latchSettled_setBacklight on (hs hready)
  · exact (Transfers.afterBytes s bs).latchSettled (hs hready)

/-- Whatever the ports make of an operation that ends in `Ready`, the invariant holds: a cut one is reset, a stuck one
keeps the geometry the operation has written. -/
theorem inv_settle (f : Fsm) (s : State) {t : State} (hf : t.fsm = .ready) (hg : GeometryInRange t)
    (hl : LatchSettled t) : Inv (settle f s t) := by
  rcases settle_cases f s t with ⟨rest, heq⟩ | ⟨k, rest, heq⟩ | ⟨k, rest, heq⟩ <;> rw [heq]
  · exact inv_of_ready hf hg hl
  · exact inv_of_powerWait rfl rfl
  · exact inv_of_waiting rfl hg

/-- Settles O56, over the cases of a step: a resting block has no FSM action, and a host operation ends in `Ready`. -/
theorem invariantKept : Obligations.InvariantKept := by
  intro s t hinv h
  have ⟨hidle, hgeometry, hlatch⟩ := hinv
  rcases step_next h with ⟨ins, -, rfl⟩ | ⟨-, rfl⟩ | ⟨u, hw, ha, rfl⟩ | ⟨i, rest, u, hc, hd, hx, rfl⟩ | ⟨-, rfl⟩
  · exact inv_of_powerWait rfl rfl
  · exact hinv
  · rw [fsmAction_of_idle (hidle hw)] at ha
    cases ha
  · obtain ⟨-, hw⟩ := (cmdReady_iff s).1 hc
    have heffect := hostEffect_of_exec (format_of_decode hd) hx
    exact inv_settle _ _ heffect.fsm_ready (heffect.geometryInRange fun hr => hgeometry (.inr hr))
      (heffect.latchSettled (hlatch hw))
  · exact hinv

end Sys2Proof.Machine
end

section
/-! What the display takes from the enable cycles of nibbles and bytes (spec 20_memory R36, R37, R40), the control
positions apart from each other and from the data lines. -/

namespace Sys2Proof.Machine

/-- The logical nibble of a frame is read from its data half alone (R37). -/
theorem nibbleOf_and_dataMask (pm : PinMap) (f : Byte) : nibbleOf pm (f &&& dataMask pm.nib) = nibbleOf pm f := by
  revert f
  cases hnib : pm.nib <;> simp only [nibbleOf, hnib] <;> decide

/-- Positioning a nibble and reading it back (R37, R59). -/
theorem nibbleOf_posNibble (pm : PinMap) (n : Nibble) : nibbleOf pm (posNibble pm.nib n) = n := by
  revert n
  cases hnib : pm.nib <;> simp only [nibbleOf, hnib] <;> decide

/-- The first frame of an enable cycle has the enable line high. -/
theorem frameHi_enPos (pm : PinMap) (bl : Bool) (p : Byte) (m : Mode) :
    (frameHi pm bl p m).getLsbD pm.enPos.toNat = true := by
  simp [frameHi_getLsbD]

/-- At a data line, which is none of the control positions, the second frame has the bit it was given. -/
theorem frameLo_dataLine {pm : PinMap} (bl : Bool) (p : Byte) (m : Mode) (h : pm.sane) {q : Pos}
    (hq : pm.onDataLine q = true) : (frameLo pm bl p m).getLsbD q.toNat = p.getLsbD q.toNat := by
  obtain ⟨-, -, -, -, -, -, hen, -, hrs, hbl⟩ := h
  have hqen : q ≠ pm.enPos := fun heq => by simp [← heq, hq] at hen
  have hqrs : q ≠ pm.rsPos := fun heq => by simp [← heq, hq] at hrs
  have hqbl : q ≠ pm.blPos := fun heq => by simp [← heq, hq] at hbl
  simp [frameLo_getLsbD, frameOut_getLsbD, hq, hqen, hqrs, hqbl]

theorem frameLo_and_dataMask {pm : PinMap} (bl : Bool) (p : Byte) (m : Mode) (h : pm.sane) :
    frameLo pm bl p m &&& dataMask pm.nib = p &&& dataMask pm.nib := by
  refine BitVec.eq_of_getLsbD_eq fun k hk => ?_
  have hpos : (BitVec.ofNat 3 k).toNat = k := Nat.mod_eq_of_lt hk
  cases hline : (dataMask pm.nib).getLsbD k with
  | false => simp [hline]
  | true =>
    have hbit := frameLo_dataLine bl p m h (q := BitVec.ofNat 3 k) (by rwa [PinMap.onDataLine, hpos])
    rw [hpos] at hbit
    simp [hline, hbit]

/-- The second frame of an enable cycle carries the nibble it was positioned from (R37). -/
theorem nibbleOf_frameLo {pm : PinMap} (bl : Bool) (n : Nibble) (m : Mode) (h : pm.sane) :
    nibbleOf pm (frameLo pm bl (posNibble pm.nib n) m) = n := by
  rw [← nibbleOf_and_dataMask, frameLo_and_dataMask bl _ m h, nibbleOf_and_dataMask, nibbleOf_posNibble]

/-- At `RS_POS`, where neither data, flag nor enable stands, the second frame carries the mode (R40). -/
theorem modeOf_frameLo {pm : PinMap} (bl : Bool) (p : Byte) (m : Mode) (h : pm.sane) :
    modeOf pm (frameLo pm bl p m) = m := by
  obtain ⟨-, hen, -, -, -, hbl, -, -, hdata, -⟩ := h
  have hline : (frameLo pm bl p m).getLsbD pm.rsPos.toNat = decide (m = .data) := by
    simp [frameLo_getLsbD, frameOut_getLsbD, hen.symm, hbl, hdata]
  cases m <;> simp [modeOf, hline]

/-- A frame with the enable line high is no falling edge, whatever the lines were. -/
theorem latchedFrom_of_enable_high {pm : PinMap} (lines : Option Byte) {f : Byte} (fs : List Byte)
    (h : f.getLsbD pm.enPos.toNat = true) : latchedFrom pm lines (f :: fs) = latchedFrom pm (some f) fs := by
  cases lines <;> simp [latchedFrom, enableFalls, h]

/-- One enable cycle is one latched nibble, whatever the lines were before (R40). -/
theorem latchedFrom_cycle {pm : PinMap} (bl : Bool) (n : Nibble) (m : Mode) (lines : Option Byte) (fs : List Byte)
    (h : pm.sane) :
    latchedFrom pm lines
        (frameHi pm bl (posNibble pm.nib n) m :: frameLo pm bl (posNibble pm.nib n) m :: fs)
      = (m, n) :: latchedFrom pm (some (frameLo pm bl (posNibble pm.nib n) m)) fs := by
  rw [latchedFrom_of_enable_high _ _ (frameHi_enPos ..)]
  simp [latchedFrom, enableFalls, frameHi_enPos, frameLo_enPos, modeOf_frameLo bl _ m h, nibbleOf_frameLo bl n m h]

/-- The display takes the nibble of an enable cycle first, and goes on from the cycle's second frame. -/
theorem logicalNibbles_nibbleEvents_append {w : Wiring} (n : Nibble) (m : Mode) (lines : Option Byte)
    (es : List Event) (h : w.pins.sane) :
    logicalNibbles w.pins lines (nibbleEvents w (posNibble w.pins.nib n) m ++ es)
      = (m, n) :: logicalNibbles w.pins (some (frameLo w.pins w.bl (posNibble w.pins.nib n) m)) es :=
  latchedFrom_cycle w.bl n m lines (frames es) h

/-- The display takes the two nibbles of a byte first, the high one before the low one (R36). -/
theorem logicalNibbles_byteEvents_append {w : Wiring} (v : Byte) (m : Mode) (lines : Option Byte) (es : List Event)
    (h : w.pins.sane) :
    logicalNibbles w.pins lines (byteEvents w v m ++ es)
      = (m, v.extractLsb' 4 4) :: (m, v.extractLsb' 0 4)
        :: logicalNibbles w.pins (some (byteLatch w v m)) es := by
  rw [byteEvents, List.append_assoc, logicalNibbles_nibbleEvents_append _ m _ _ h,
    logicalNibbles_nibbleEvents_append _ m _ _ h, byteLatch]

/-- A byte is its two nibbles, the first one high (R83). -/
theorem highNibble_append_lowNibble (v : Byte) : v.extractLsb' 4 4 ++ v.extractLsb' 0 4 = v := by
  revert v; decide

/-- Settles O21, by induction on the bytes with the lines before them general: each byte is read off the head of the
view, and leaves other lines. -/
theorem logicalViewOfBytes : Obligations.LogicalViewOfBytes := by
  intro w bs lines h
  induction bs generalizing lines with
  | nil => cases lines <;> rfl
  | cons b bs ih =>
    calc logicalBytes w.pins lines (bytesEvents w (b :: bs))
      _ = pairNibbles (logicalNibbles w.pins lines (byteEvents w b.2 b.1 ++ bytesEvents w bs)) := rfl
      _ = (b.1, b.2) :: logicalBytes w.pins (some (byteLatch w b.2 b.1)) (bytesEvents w bs) := by
        rw [logicalNibbles_byteEvents_append _ _ _ _ h, pairNibbles, highNibble_append_lowNibble, logicalBytes]
      _ = b :: bs := by rw [ih]

end Sys2Proof.Machine
end

section
/-! Where the Data bytes of addressed rows land in CGRAM (spec 20_memory R34, R35, R43; 70_reset_and_hazards R168). -/

namespace Sys2Proof.Machine

/-- A CGRAM address from its slot and row fields (R43). -/
theorem cgramFields_toNat (slot row : BitVec 3) :
    (0#1 ++ slot ++ row : BitVec 7).toNat = 8 * slot.toNat + row.toNat := by
  revert slot row; decide

/-- A Command byte `0x40 + a` selects address `a` of CGRAM, whatever the address was (R34, R62). -/
theorem commandCursor_setCgram (cur : Option Cursor) {b : Byte} {a : Nat} (ha : a < 0x40) (hb : b.toNat = 0x40 + a) :
    commandCursor cur b = some { ram := .cgram, addr := some (BitVec.ofNat 7 a) } := by
  have hnotDdram : b.getLsbD 7 = false := by
    rw [BitVec.getLsbD, hb]
    exact Nat.testBit_lt_two_pow (by omega)
  have hcgram : b.getLsbD 6 = true := by
    rw [BitVec.getLsbD, hb, Nat.testBit_two_pow_add_eq a 6, Nat.testBit_lt_two_pow ha, Bool.not_false]
  have haddr : (0#1 ++ b.extractLsb' 3 3 ++ b.extractLsb' 0 3 : BitVec 7) = BitVec.ofNat 7 a := by
    apply BitVec.eq_of_toNat_eq
    rw [cgramFields_toNat, BitVec.extractLsb'_toNat, BitVec.extractLsb'_toNat, BitVec.toNat_ofNat, hb,
      Nat.shiftRight_eq_div_pow]
    omega
  simp only [commandCursor, decodeCmd, hnotDdram, hcgram, haddr, Bool.false_eq_true, if_false, if_true]

/-- The Command byte of a glyph's row: no carry and no overflow (R62). -/
theorem cgramBase_add_toNat {slot : Byte} {r : Nat} (hslot : slot.toNat ≤ 7) (hr : r ≤ 7) :
    (cgramBase slot + BitVec.ofNat 8 r).toNat = 0x40 + (8 * slot.toNat + r) := by
  have hbase : (cgramBase slot).toNat = 0x40 + 8 * slot.toNat := by
    revert slot
    decide
  rw [BitVec.toNat_add, hbase, BitVec.toNat_ofNat]
  omega

theorem cursorAfter_append (cur : Option Cursor) (xs ys : List (Mode × Byte)) :
    cursorAfter cur (xs ++ ys) = cursorAfter (cursorAfter cur xs) ys := by
  induction xs generalizing cur with
  | nil => simp [cursorAfter]
  | cons x xs ih =>
    obtain ⟨m, b⟩ := x
    cases m <;> cases cur <;> simp [cursorAfter, ih]

/-- Data bytes that each follow a Command byte with their CGRAM address land there, wherever the address was (R43). -/
theorem landings_of_addressed {α : Type} {byte value : α → Byte} {addr : α → BitVec 7} (rows : List α)
    (h : ∀ r cur, commandCursor cur (byte r) = some { ram := .cgram, addr := some (addr r) }) (cur : Option Cursor) :
    landings cur (rows.flatMap fun r => [(.command, byte r), (.data, value r)])
      = rows.map fun r => { ram := .cgram, addr := some (addr r), value := value r } := by
  induction rows generalizing cur with
  | nil => simp [landings]
  | cons r rows ih => simp [landings, h, ih]

/-- The last row of a glyph decides the address after it (R34, R35). -/
theorem cursorAfter_glyphBytes {slot : Byte} {c : Cursor}
    (h : ∀ cur, commandCursor cur (cgramBase slot + 7#8) = some c) (bitmap : Bitmap) (cur : Option Cursor) :
    cursorAfter cur (glyphBytes bitmap slot) = some c.next := by
  have hlast (before : Option Cursor) (v : Byte) :
      cursorAfter before [(.command, cgramBase slot + 7#8), (.data, v)] = some c.next := by
    simp [cursorAfter, h]
  rw [glyphBytes, List.finRange_succ_last, List.flatMap_append, cursorAfter_append]
  exact hlast _ _

/-- The address after slot `slot`'s last row: the next slot's first, unknown after the last slot (R43, R168). -/
theorem cursor_next_after_slot {slot : Byte} (h : slot.toNat ≤ 7) :
    Cursor.next { ram := .cgram, addr := some (BitVec.ofNat 7 (8 * slot.toNat + 7)) }
      = { ram := .cgram, addr := if slot = 7#8 then none else some (BitVec.ofNat 7 (8 * slot.toNat + 8)) } := by
  have htop : BitVec.ofNat 7 (8 * slot.toNat + 7) = Ram.cgram.top ↔ slot = 7#8 := by
    simp only [Ram.top]
    bv_omega
  have hsucc : BitVec.ofNat 7 (8 * slot.toNat + 7) + 1#7 = BitVec.ofNat 7 (8 * slot.toNat + 8) := by bv_omega
  simp [Cursor.next, htop, hsucc]

/-- Settles O41: the Command byte before each row gives the row its address, and the last row's address its successor. -/
theorem glyphLandings : Obligations.GlyphLandings := by
  intro bitmap slot cur hslot
  have hrow (r : Fin 8) (before : Option Cursor) : commandCursor before (cgramBase slot + BitVec.ofNat 8 r.val)
      = some { ram := .cgram, addr := some (BitVec.ofNat 7 (8 * slot.toNat + r.val)) } :=
    commandCursor_setCgram before (by omega) (cgramBase_add_toNat hslot (by omega))
  constructor
  · exact landings_of_addressed _ hrow cur
  · rw [cursorAfter_glyphBytes (hrow 7), ← cursor_next_after_slot hslot]
    rfl

end Sys2Proof.Machine
end

section
/-! The decoder of each format against the encoder (spec 30_encoding R53 to R57, R64 to R67). -/

namespace Sys2Proof

theorem textLegal_iff (text : List Byte) : textLegal text = true ↔ ∀ c ∈ text, c ≠ Config.strTerm := by
  simp only [textLegal, Bool.not_eq_true', List.contains_eq_mem, decide_eq_false_iff_not]
  exact ⟨fun h c hc hterm => h (hterm ▸ hc), fun h hmem => h _ hmem rfl⟩

/-- A string without the terminator is read back from its characters and one terminator (R67). -/
theorem takeText_append_strTerm {text : List Byte} (h : textLegal text = true) (rest : List Byte) :
    takeText (text ++ Config.strTerm :: rest) = some (text, rest) := by
  rw [textLegal_iff] at h
  induction text with
  | nil => simp [takeText]
  | cons c text ih =>
    obtain ⟨hc, htext⟩ := List.forall_mem_cons.1 h
    simp [takeText, hc, ih htext]

/-- What a string operand is read from: its characters, then one terminator (R67). -/
theorem eq_append_of_takeText {bs text rest : List Byte} (h : takeText bs = some (text, rest)) :
    bs = text ++ Config.strTerm :: rest := by
  fun_induction takeText bs generalizing text with
  | case1 => cases h
  | case2 => cases h; rfl
  | case3 b bs _ text' rest' htake ih => cases h; rw [List.cons_append, ← ih htake]
  | case4 => cases h

/-- A bitmap as the decoder writes it, from its eight operand bytes (R57). -/
theorem exists_bitmap_rows (bitmap : Bitmap) :
    ∃ b0 b1 b2 b3 b4 b5 b6 b7 : Byte, bitmap = #v[b0, b1, b2, b3, b4, b5, b6, b7] := by
  refine ⟨bitmap[0], bitmap[1], bitmap[2], bitmap[3], bitmap[4], bitmap[5], bitmap[6], bitmap[7], ?_⟩
  ext k hk
  interval_cases k <;> rfl

/-- The command port reads an operation's bytes to the last one; only a string's characters decide where that is (R67). -/
theorem decode_encode_append {i : Instr} (hi : i.format = .host) (hw : i.wellFormed = true) (rest : List Byte) :
    decode (encode i ++ rest) = .ok i rest := by
  cases i with
  | init c r a n e w s b => rfl
  | setcursor c r => rfl
  | clearline r => rfl
  | setbacklight on => rfl
  | loadglyph bitmap slot =>
    obtain ⟨b0, b1, b2, b3, b4, b5, b6, b7, rfl⟩ := exists_bitmap_rows bitmap
    rfl
  | printchar c => rfl
  | print text => simp [encode, decode, takeText_append_strTerm hw]
  | printcenter text => simp [encode, decode, takeText_append_strTerm hw]
  | _ => cases hi

/-- Each operand byte the command port reads is one the encoder writes (R56, R67). -/
theorem eq_encode_append_of_decode {bs rest : List Byte} {i : Instr} (h : decode bs = .ok i rest) :
    bs = encode i ++ rest := by
  revert h
  fun_cases decode bs <;> intro h <;> cases h
  case case14 htake => simp [encode, eq_append_of_takeText htake]
  case case16 htake => simp [encode, eq_append_of_takeText htake]
  all_goals rfl

/-! The bits of the three bytes with a field. -/

theorem addrwByte_fields (a : BusAddr) : (addrwByte a).getLsbD 0 = false ∧ (addrwByte a).extractLsb' 1 7 = a := by
  revert a; decide

theorem addrwByte_extractLsb' {b : Byte} (h : ¬ b.getLsbD 0 = true) : addrwByte (b.extractLsb' 1 7) = b := by
  revert b; decide

theorem ddramByte_fields (a : BitVec 7) : (ddramByte a).getLsbD 7 = true ∧ (ddramByte a).setWidth 7 = a := by
  revert a; decide

theorem ddramByte_setWidth {b : Byte} (h : b.getLsbD 7 = true) : ddramByte (b.setWidth 7) = b := by
  revert b; decide

theorem cgramByte_fields (slot row : BitVec 3) :
    (cgramByte slot row).getLsbD 7 = false ∧ (cgramByte slot row).getLsbD 6 = true
      ∧ (cgramByte slot row).extractLsb' 3 3 = slot ∧ (cgramByte slot row).extractLsb' 0 3 = row := by
  revert slot row; decide

theorem cgramByte_extractLsb' {b : Byte} (h7 : ¬ b.getLsbD 7 = true) (h6 : b.getLsbD 6 = true) :
    cgramByte (b.extractLsb' 3 3) (b.extractLsb' 0 3) = b := by
  revert b; decide

/-! The decoders of the emitted bytes. -/

theorem decodeAddrw_addrwByte (a : BusAddr) (rest : List Byte) :
    decodeAddrw (addrwByte a) rest = .ok (.addrw a) rest := by
  obtain ⟨hwrite, haddr⟩ := addrwByte_fields a
  simp only [decodeAddrw, hwrite, haddr, Bool.false_eq_true, if_false]

theorem decodeCmd_ddramByte (a : BitVec 7) (rest : List Byte) :
    decodeCmd (ddramByte a) rest = .ok (.setDdram a) rest := by
  obtain ⟨hddram, haddr⟩ := ddramByte_fields a
  simp only [decodeCmd, hddram, haddr, if_true]

theorem decodeCmd_cgramByte (slot row : BitVec 3) (rest : List Byte) :
    decodeCmd (cgramByte slot row) rest = .ok (.setCgram slot row) rest := by
  obtain ⟨hnotDdram, hcgram, hslot, hrow⟩ := cgramByte_fields slot row
  simp only [decodeCmd, hnotDdram, hcgram, hslot, hrow, Bool.false_eq_true, if_false, if_true]

theorem eq_encode_append_of_decodeAddrw {b : Byte} {bs rest : List Byte} {i : Instr}
    (h : decodeAddrw b bs = .ok i rest) : i.format = .addrw ∧ b :: bs = encode i ++ rest := by
  unfold decodeAddrw at h
  split at h <;> cases h
  next hwrite => exact ⟨rfl, by rw [encode, addrwByte_extractLsb' hwrite, List.singleton_append]⟩

theorem eq_encode_append_of_decodeNib {b : Byte} {bs rest : List Byte} {i : Instr}
    (h : decodeNib b bs = .ok i rest) : i.format = .lcdNib ∧ b :: bs = encode i ++ rest := by
  revert h
  fun_cases decodeNib b bs <;> intro h <;> cases h
  all_goals
    subst b
    exact ⟨rfl, rfl⟩

theorem eq_encode_append_of_decodeCmd {b : Byte} {bs rest : List Byte} {i : Instr}
    (h : decodeCmd b bs = .ok i rest) : i.format = .lcdCmd ∧ b :: bs = encode i ++ rest := by
  revert h
  fun_cases decodeCmd b bs <;> intro h <;> cases h
  case case1 hddram => exact ⟨rfl, by rw [encode, ddramByte_setWidth hddram, List.singleton_append]⟩
  case case2 hnotDdram hcgram =>
    exact ⟨rfl, by rw [encode, cgramByte_extractLsb' hnotDdram hcgram, List.singleton_append]⟩
  all_goals
    subst b
    exact ⟨rfl, rfl⟩

/-- Settles O1, constructor by constructor: the command port by `decode_encode_append`; of the emitted bytes the three
with a field by its bits, the others by evaluation. -/
theorem decodeOfEncode : Obligations.DecodeOfEncode := by
  intro i rest hw
  cases i with
  | addrw a => exact decodeAddrw_addrwByte a rest
  | setCgram slot row => exact decodeCmd_cgramByte slot row rest
  | setDdram a => exact decodeCmd_ddramByte a rest
  | frame | force8 | switch4 | functionSet | displayOn | clear | entryMode | data => rfl
  | _ => exact decode_encode_append rfl hw rest

/-- Settles O2, format by format. -/
theorem encodeOfDecode : Obligations.EncodeOfDecode := by
  intro f bs rest i h
  revert h
  fun_cases decodeAs f bs <;> intro h
  · exact ⟨Machine.format_of_decode h, eq_encode_append_of_decode h⟩
  · cases h
  · exact eq_encode_append_of_decodeAddrw h
  · cases h; exact ⟨rfl, rfl⟩
  · exact eq_encode_append_of_decodeNib h
  · exact eq_encode_append_of_decodeCmd h
  · cases h; exact ⟨rfl, rfl⟩

/-- The reserved space of the command port (R65): the opcodes the eight tests of `decode` leave over. -/
theorem decode_eq_reserved_iff (op : Byte) (bs : List Byte) :
    decode (op :: bs) = .reserved op ↔ op.toNat = 0 ∨ 9 ≤ op.toNat := by
  constructor
  · generalize op :: bs = all
    fun_cases decode all <;> intro h <;> cases h
    bv_omega
  · intro h
    unfold decode
    iterate 8 rw [if_neg (by bv_omega)]

/-- Settles O3: between operations a step is the next command, which a reserved opcode leaves no meaning. -/
theorem reservedOpcodesRefused : Obligations.ReservedOpcodesRefused := by
  intro op bs
  refine ⟨decode_eq_reserved_iff op bs, fun s hready hnoReset hcmd hop => ?_⟩
  rw [Machine.step_command hnoReset hready, Machine.runCommand, hcmd, (decode_eq_reserved_iff op bs).2 hop]

/-- Settles O4: the decoders run on the eight fixed words. -/
theorem specWordsDecode : Obligations.SpecWordsDecode :=
  ⟨rfl, rfl, rfl, rfl, rfl, rfl, rfl, rfl⟩

end Sys2Proof
end

section
/-! The bytes and frames of the emissions, and the text operations, in numbers (spec 30_encoding R50 to R55, R61 to R63,
R75). -/

namespace Sys2Proof.Machine

/-- Settles O17, from the bits of a frame at a position. -/
theorem frameBits : Obligations.FrameBits := by
  intro pm bl p m k held
  have hpos : (BitVec.ofNat 3 k.val).toNat = k.val := Nat.mod_eq_of_lt k.isLt
  have hiff (q : Pos) : BitVec.ofNat 3 k.val = q ↔ k.val = q.toNat := by rw [← BitVec.toNat_inj, hpos]
  have hout : (frameOut pm bl p m).getLsbD k.val = held := by
    simpa only [hpos, hiff] using frameOut_getLsbD pm bl p m (BitVec.ofNat 3 k.val)
  constructor
  · simpa only [hpos, hiff, hout, Bool.or_comm] using frameHi_getLsbD pm bl p m (BitVec.ofNat 3 k.val)
  · simpa only [hpos, hiff, hout, Bool.and_comm] using frameLo_getLsbD pm bl p m (BitVec.ofNat 3 k.val)

theorem addrwByte_eq_ofNat (a : BusAddr) : addrwByte a = BitVec.ofNat 8 (2 * a.toNat) := by
  revert a; decide

theorem ddramByte_eq_ofNat (a : BitVec 7) : ddramByte a = BitVec.ofNat 8 (0x80 + a.toNat) := by
  revert a; decide

theorem cgramByte_eq_ofNat (slot row : BitVec 3) :
    cgramByte slot row = BitVec.ofNat 8 (0x40 + 8 * slot.toNat + row.toNat) := by
  revert slot row; decide

/-- Settles O23: an emission of one byte is one WRITE. -/
theorem busByteEmissions : Obligations.BusByteEmissions := by
  intro s
  refine ⟨fun a => ?_, fun f => rfl⟩
  rw [← addrwByte_eq_ofNat]
  rfl

/-- Settles O24: each is one byte transfer. -/
theorem byteEmissions : Obligations.ByteEmissions := by
  intro s
  refine ⟨fun slot row => ?_, fun a => ?_, fun d => ?_⟩
  · rw [← cgramByte_eq_ofNat, ← sendByte_eq]; rfl
  · rw [← ddramByte_eq_ofNat, ← sendByte_eq]; rfl
  · rw [← sendByte_eq]; rfl

/-- Settles O40: a slot's base is a multiple of 8, so adding a row sets its own three bits. -/
theorem cgramAddressExact : Obligations.CgramAddressExact := by
  intro slot r hslot hr
  have hsum := cgramBase_add_toNat hslot hr
  have hbase : (cgramBase slot).toNat = 2 ^ 3 * (8 + slot.toNat) := by
    have h0 := cgramBase_add_toNat hslot (Nat.zero_le 7)
    rw [BitVec.add_zero] at h0
    omega
  have hrow : (BitVec.ofNat 8 r).toNat = r := by
    rw [BitVec.toNat_ofNat]
    omega
  refine ⟨by omega, BitVec.eq_of_toNat_eq ?_⟩
  rw [hsum, BitVec.toNat_or, hbase, hrow, ← Nat.two_pow_add_eq_or_of_lt (by omega)]
  omega

/-- Settles O43: the sanitised code is one Data byte. -/
theorem printCharCompletes : Obligations.PrintCharCompletes := by
  intro c s h
  rw [← san_eq, ← sendByte_eq]
  exact whenReady_next.2 ⟨h, rfl, rfl⟩

/-- The clamp of R75 written out: the subtraction of `leadSpaces` stops at 0 by itself. -/
theorem leadSpaces_eq (maxCol : Byte) (len : Nat) :
    leadSpaces maxCol len = (if len > maxCol.toNat + 1 then 0 else maxCol.toNat + 1 - len) / 2 := by
  unfold leadSpaces
  split <;> omega

/-- Settles O45, from the bytes of PRINTCENTER, its lead and San in numbers. -/
theorem printCenterCompletes : Obligations.PrintCenterCompletes := by
  intro text s h htext
  refine whenReady_next.2 ⟨h, (textLegal_iff text).2 htext, ?_⟩
  rw [printCenter_eq, leadSpaces_eq, List.map_replicate]
  simp only [san_eq]
  rfl

end Sys2Proof.Machine
end

section
/-! The operations that expand into others (spec 30_encoding R69). -/

namespace Sys2Proof.Machine

theorem execAll_cons {i : Instr} (is : List Instr) {s t : State} (h : exec i s = .next t) :
    execAll (i :: is) s = execAll is t := by
  rw [execAll, h]

theorem execAll_append {is : List Instr} (js : List Instr) {s t : State} (h : execAll is s = .next t) :
    execAll (is ++ js) s = execAll js t := by
  induction is generalizing s with
  | nil => cases h; rfl
  | cons i is ih =>
    cases hx : exec i s with
    | next u =>
      rw [execAll_cons is hx] at h
      rw [List.cons_append, execAll_cons _ hx, ih h]
    | fault f => cases f
    | refused r => simp [execAll, hx] at h

theorem sendDataBytes_fsm (bs : List Byte) (s : State) : (sendDataBytes bs s).fsm = s.fsm := by
  rw [sendDataBytes_eq, afterBytes_fsm]

/-- PRINT expands into its PRINTCHARs (R121). -/
theorem execAll_printchars (text : List Byte) {s : State} (h : s.fsm = .ready) :
    execAll (text.map .printchar) s = .next (printText text s) := by
  induction text generalizing s with
  | nil => rfl
  | cons c text ih =>
    have hc : exec (.printchar c) s = .next (printChar c s) := whenReady_next.2 ⟨h, rfl, rfl⟩
    rw [List.map_cons, execAll_cons _ hc]
    exact ih (by rw [printChar, sendByte_eq, afterBytes_fsm, h])

/-- PRINTCHAR leaves a space as it is, so spaces sent raw are spaces printed (R63). -/
theorem execAll_spaces (n : Nat) {s : State} (h : s.fsm = .ready) :
    execAll (List.replicate n (.printchar 32#8)) s = .next (sendDataBytes (List.replicate n Config.space) s) := by
  have hprinted : printText (List.replicate n Config.space) s = sendDataBytes (List.replicate n Config.space) s := by
    rw [printText_eq, sendDataBytes_eq, List.map_replicate, List.map_replicate]
    rfl
  rw [← hprinted, ← execAll_printchars _ h, List.map_replicate]
  rfl

/-- The glyph bodies of INIT step 10 are LOADGLYPHs (R100, R113): every slot is legal. -/
theorem execAll_loadglyphs (rom : Fin 8 → Bitmap) (slots : List (Fin 8)) {s : State} (h : s.fsm = .ready) :
    execAll (slots.map fun k => .loadglyph (rom k) (BitVec.ofNat 8 k.val)) s = .next (sendGlyphs rom slots s) := by
  induction slots generalizing s with
  | nil => rfl
  | cons k ks ih =>
    have hslot : slotLegal (BitVec.ofNat 8 k.val) = true := by revert k; decide
    have hk : exec (.loadglyph (rom k) (BitVec.ofNat 8 k.val)) s = .next (glyphBody (rom k) (BitVec.ofNat 8 k.val) s) :=
      whenReady_next.2 ⟨h, hslot, rfl⟩
    rw [List.map_cons, execAll_cons _ hk]
    exact ih (by rw [glyphBody, sendGlyphRows_eq, afterBytes_fsm, h])

theorem sendGlyphs_eq (rom : Fin 8 → Bitmap) (slots : List (Fin 8)) (s : State) :
    sendGlyphs rom slots s
      = s.afterBytes (slots.flatMap fun k => rowBytes (rom k).toList (cgramBase (BitVec.ofNat 8 k.val))) := by
  induction slots generalizing s with
  | nil => rw [List.flatMap_nil, afterBytes_nil, sendGlyphs]
  | cons k ks ih => rw [sendGlyphs, ih, glyphBody, sendGlyphRows_eq, afterBytes_append, List.flatMap_cons]

/-- No transfer reads the FSM, so `GlyphLoad` may become `Ready` before its transfers as well as after them (R100). -/
theorem actGlyphLoad_eq_sendGlyphs (rom : Fin 8 → Bitmap) (s : State) :
    actGlyphLoad rom s = sendGlyphs rom (List.finRange 8) { s with fsm := .ready } := by
  rw [actGlyphLoad, sendGlyphs_eq, sendGlyphs_eq]
  rfl

/-- With no input pending, a step inside INIT is the whole action of the FSM's state. -/
theorem step_of_fsmAction {s t : State} (hw : s.waiting = false) (hp : s.port = [])
    (h : fsmAction s = some (.next t)) : step s = .next t := by
  obtain ⟨-, -, -, hport, -⟩ := (fsmAction_transfers h).keeps
  have hsettle : settle s.fsm s t = t := by
    rw [settle_quiet _ _ _ (by rw [hp]; rfl), hp, List.drop_nil, ← hp, ← hport]
  rw [step_eq (by rw [hp]; rfl) hw, h]
  exact congrArg Host.Outcome.next hsettle

/-- Settles O47: each side of an expansion is the same sequence of transfers. -/
theorem expansionsAgree : Obligations.ExpansionsAgree := by
  refine ⟨fun row s h => ?_, fun text s h htext => ?_, fun s h hw hp => ?_⟩
  · have hcursor : exec (.setcursor 0x00#8 row) s = .next (setCursor 0x00#8 row s) := whenReady_next.2 ⟨h, rfl, rfl⟩
    have hready : (setCursor 0x00#8 row s).fsm = .ready := by rw [setCursor_eq, afterBytes_fsm, h]
    rw [execAll_cons _ hcursor, execAll_spaces _ hready]
    exact whenReady_next.2 ⟨h, rfl, rfl⟩
  · have hlegal : textLegal text = true := (textLegal_iff text).2 htext
    have hprint {t : State} (ht : t.fsm = .ready) : exec (.print text) t = .next (printText text t) :=
      whenReady_next.2 ⟨ht, hlegal, rfl⟩
    constructor
    · rw [hprint h, execAll_printchars text h]
    · rw [execAll_append _ (execAll_spaces _ h), execAll_cons _ (hprint (by rw [sendDataBytes_fsm, h]))]
      exact whenReady_next.2 ⟨h, hlegal, rfl⟩
  · rw [execAll_loadglyphs _ _ rfl, ← actGlyphLoad_eq_sendGlyphs]
    exact step_of_fsmAction hw hp (by rw [fsmAction, h])

end Sys2Proof.Machine
end

section
/-! The transfer primitives (spec 40_transfer_primitives R80 to R83). -/

namespace Sys2Proof.Machine

/-- Settles O16: the frames are those of `sendNibble_eq`, written out. -/
theorem sendNibbleEffect : Obligations.SendNibbleEffect := by
  intro p m s
  refine ⟨frameOut s.pins s.bl p m, frameHi s.pins s.bl p m, frameLo s.pins s.bl p m, ?out, rfl, rfl, ?effect⟩
  case out => cases m <;> rfl
  case effect => exact sendNibble_eq p m s

/-- Setting some bits of a word and clearing them makes two words that differ at these bits alone. -/
theorem or_xor_and_not {w : Nat} (x b : BitVec w) : (x ||| b) ^^^ (x &&& ~~~b) = b := by
  ext k hk
  cases hx : x[k] <;> simp [hx]

/-- Settles O18: the two frames are one byte with the enable bit set and cleared. -/
theorem framesDifferAtEnable : Obligations.FramesDifferAtEnable :=
  fun pm bl p m => or_xor_and_not (frameOut pm bl p m) (bit pm.enPos)

/-- Settles O20: the events of one byte, with no events after them. -/
theorem recombinationLaw : Obligations.RecombinationLaw := by
  intro v m s lines h
  have hevents : (sendByte v m s).trace.drop s.trace.length = byteEvents s.wiring v m ++ [] := by
    rw [sendByte_eq]
    exact List.drop_left
  refine ⟨?_, highNibble_append_lowNibble v⟩
  rw [hevents]
  exact logicalNibbles_byteEvents_append (w := s.wiring) v m lines [] h

end Sys2Proof.Machine
end

section
/-! What an emission can do, said once (spec 30_encoding R50 to R55; 41_init_fsm R92 to R99, R102). -/

namespace Sys2Proof.Machine

/-- Of the registers transfers write the latch and the FSM alone. -/
theorem Transfers.eq_update {s t : State} (h : Transfers s t) :
    t = { s with latch := t.latch, trace := t.trace, fsm := t.fsm } := by
  obtain ⟨hconfig, hbl, hcmd, hport, hwaiting⟩ := h.keeps
  simp only [State.config, State.pins, Prod.mk.injEq, PinMap.mk.injEq] at hconfig
  cases s; cases t
  simp_all

theorem advance_fsm_of_ne {src dst : Fsm} {s : State} (h : s.fsm ≠ src) : (advance src dst s).fsm = s.fsm := by
  rw [advance, if_neg h]

theorem sendNibble_fsm (p : Byte) (m : Mode) (s : State) : (sendNibble p m s).fsm = s.fsm := by
  rw [sendNibble_eq]

theorem delayMs_fsm (n : Nat) (s : State) : (delayMs n s).fsm = s.fsm := rfl

theorem sendByte_fsm (v : Byte) (m : Mode) (s : State) : (sendByte v m s).fsm = s.fsm := by
  rw [sendByte_eq, afterBytes_fsm]

/-- FORCE8 moves the FSM in its three states only (R92 to R94). -/
theorem actForce8_fsm {s : State} (h : s.fsm.emission ≠ some .force8) : (actForce8 s).fsm = s.fsm := by
  unfold actForce8
  split
  next hfsm => simp [hfsm, Fsm.emission] at h
  next hfsm => simp [hfsm, Fsm.emission] at h
  next hfsm => simp [hfsm, Fsm.emission] at h
  next => rw [sendForce8, sendNibble_fsm]

/-- What an emission that completes has done: ADDRW and FRAME have written one byte to the bus; every other one has made
transfers, and moved the FSM in a state whose action it is only (R102). -/
inductive EmissionEffect (i : Instr) (s t : State) : Prop
  | addrw (a : BusAddr) (effect : t = busWriteAddr a s)
  | frame (f : Byte) (instr : i = .frame f) (effect : t = busWriteFrame f s)
  | transfers (noAddrw : ∀ a, i ≠ .addrw a) (effect : Transfers s t)
      (fsm_eq : s.fsm.emission ≠ some i → t.fsm = s.fsm)

/-- A logical byte by itself (R55). -/
theorem EmissionEffect.byte {i : Instr} (v : Byte) (m : Mode) (s : State) (hi : ∀ a, i ≠ .addrw a) :
    EmissionEffect i s (sendByte v m s) :=
  .transfers hi (Transfers.none.byte v m) fun _ => sendByte_fsm v m s

/-- Transfers that end the state `src` of INIT. -/
theorem EmissionEffect.advance {i : Instr} {src : Fsm} (dst : Fsm) {s t : State} (hi : ∀ a, i ≠ .addrw a)
    (hsrc : src.emission = some i) (ht : Transfers s t) (hfsm : t.fsm = s.fsm) :
    EmissionEffect i s (Machine.advance src dst t) := by
  refine .transfers hi (ht.advance src dst) fun hne => ?_
  have hout : t.fsm ≠ src := fun heq => hne (by rw [← hfsm, heq, hsrc])
  rw [advance_fsm_of_ne hout, hfsm]

/-- The inversion of `exec` for emissions. -/
theorem emissionEffect_of_exec {i : Instr} {s t : State} (hi : i.format ≠ .host) (h : exec i s = .next t) :
    EmissionEffect i s t := by
  cases i with
  | addrw a => cases h; exact .addrw a rfl
  | frame f => cases h; exact .frame f rfl rfl
  | force8 => cases h; exact .transfers nofun Transfers.none.force8 actForce8_fsm
  | switch4 => cases h; exact .advance _ nofun rfl (Transfers.none.nibble _ _) (sendNibble_fsm ..)
  | functionSet => cases h; exact .advance _ nofun rfl (Transfers.none.byte _ _) (sendByte_fsm ..)
  | displayOn => cases h; exact .advance _ nofun rfl (Transfers.none.byte _ _) (sendByte_fsm ..)
  | clear => cases h; exact .advance _ nofun rfl ((Transfers.none.byte _ _).wait _) ((delayMs_fsm ..).trans (sendByte_fsm ..))
  | entryMode => cases h; exact .advance _ nofun rfl (Transfers.none.byte _ _) (sendByte_fsm ..)
  | setCgram slot row => cases h; exact .byte _ _ _ nofun
  | setDdram a => cases h; exact .byte _ _ _ nofun
  | data d => cases h; exact .byte _ _ _ nofun
  | _ => exact absurd rfl hi

/-- Settles O50, from the inversion `emissionEffect_of_exec`. -/
theorem emissionFrame : Obligations.EmissionFrame := by
  intro i s t hi h
  rcases emissionEffect_of_exec hi h with ⟨a, rfl⟩ | ⟨f, rfl, rfl⟩ | ⟨hno, ht, hfsm⟩
  · exact ⟨rfl, ⟨_, rfl⟩, fun _ => rfl, fun _ => rfl⟩
  · exact ⟨rfl, ⟨_, rfl⟩, nofun, fun _ => rfl⟩
  · exact ⟨ht.eq_update, ht.appendsShaped.trace_grows, fun ⟨a, ha⟩ => absurd ha (hno a), hfsm⟩

end Sys2Proof.Machine
end

section
/-! A block stuck at an event (spec 40_transfer_primitives R85). -/

namespace Sys2Proof.Machine

/-- A hung operation has met an event that never completes. -/
theorem hang_mem_of_carry_hung {n k : Nat} {ins rest : List PortIn} (h : carry n ins = .hung k rest) :
    .hang ∈ ins := by
  fun_induction carry n ins generalizing k rest with
  | case1 => cases h
  | case2 => cases h
  | case3 n ack ins ih =>
    cases hc : carry n ins with
    | hung j left => exact List.mem_cons_of_mem _ (ih hc)
    | all left => simp [hc, Carried.after] at h
    | cut j left => simp [hc, Carried.after] at h
  | case4 => cases h
  | case5 => simp

/-- An operation that itself waits for nothing gets the block stuck only at an event that never completes. -/
theorem hang_mem_of_settle_waiting {f : Fsm} {s t : State} (ht : t.waiting = false)
    (h : (settle f s t).waiting = true) : .hang ∈ s.port := by
  unfold settle at h
  split at h
  next => simp [ht] at h
  next => simp [State.reset] at h
  next hhung => exact hang_mem_of_carry_hung hhung

/-- A stuck block passes over every input but a reset. -/
theorem step_of_waiting {s : State} (hw : s.waiting = true) (hn : noReset s.port = true) :
    step s = .next { s with port := s.port.drop 1 } := by
  unfold step stepBlock
  split
  next hport => simp [hport, noReset] at hn
  next => rw [if_pos hw]

/-- Settles O10, over the cases of a step: neither a transfer nor a host operation sets the wait. -/
theorem stuckOnlyByHangingEvent : Obligations.StuckOnlyByHangingEvent := by
  refine ⟨fun s t hw h ht => ?_, fun s => step_of_waiting⟩
  rcases step_next h with ⟨ins, -, rfl⟩ | ⟨hstuck, -⟩ | ⟨u, -, ha, rfl⟩ | ⟨i, rest, u, -, hd, hx, rfl⟩ | ⟨-, rfl⟩
  · cases ht
  · rw [hw] at hstuck; cases hstuck
  · obtain ⟨-, -, -, -, hwaiting⟩ := (fsmAction_transfers ha).keeps
    exact hang_mem_of_settle_waiting (hwaiting.trans hw) ht
  · obtain ⟨-, -, hwaiting⟩ := (hostEffect_of_exec (format_of_decode hd) hx).inputs_eq
    exact hang_mem_of_settle_waiting (hwaiting.trans hw) ht
  · rw [hw] at ht; cases ht

end Sys2Proof.Machine
end

section
/-! The events of an INIT and the FSM of a stuck one (spec 41_init_fsm R91 to R102). -/

namespace Sys2Proof.Machine

/-- The events of an INIT: the sum of the event column of R102. -/
def initEventCount (glyphs : Bool) : Nat := if glyphs then 1343 else 63

/-- One row of R102, the events counted from the start of INIT: `before` is the sum of the rows above. -/
theorem fsmAfter_sub {glyphs : Bool} {fuel done before : Nat} {f : Fsm} (hf : f ≠ .ready) :
    fsmAfter glyphs (fuel + 1) f (done - before)
      = if done < before + (fsmRow glyphs f).1 then f
        else fsmAfter glyphs fuel (fsmRow glyphs f).2 (done - (before + (fsmRow glyphs f).1)) := by
  have hpos : 0 < (fsmRow glyphs f).1 := by cases f <;> simp [fsmRow] at hf ⊢
  split
  next => exact fsmAfter_stay (by omega)
  next => rw [fsmAfter_go hf (by omega), Nat.sub_sub]

/-- The states of a running INIT are reached at the sums of the event column of R102. -/
theorem fsmAfter_eq_initFsmAfter {glyphs : Bool} {done : Nat} (h : done < initEventCount glyphs) :
    fsmAfter glyphs 11 .powerWait done = initFsmAfter done := by
  calc fsmAfter glyphs 11 .powerWait done
    _ = fsmAfter glyphs 11 .powerWait (done - 0) := rfl
    _ = initFsmAfter done := by
      cases glyphs <;> simp only [initEventCount, if_true, Bool.false_eq_true, if_false] at h <;>
        simp only [fsmAfter_sub, fsmRow, afterEntryMode, initFsmAfter, if_true, Bool.false_eq_true, if_false, ne_eq,
          reduceCtorEq, not_false_eq_true, Nat.reduceAdd, h]

/-! The events each operation of INIT appends, counted. -/

@[simp] theorem sendNibble_trace_length (p : Byte) (m : Mode) (s : State) :
    (sendNibble p m s).trace.length = s.trace.length + 5 := by
  simp [sendNibble_eq, nibbleEvents, enableCycle]

@[simp] theorem sendByte_trace_length (v : Byte) (m : Mode) (s : State) :
    (sendByte v m s).trace.length = s.trace.length + 10 := by
  simp [sendByte]

@[simp] theorem delayMs_trace_length (n : Nat) (s : State) :
    (delayMs n s).trace.length = s.trace.length + 1 := by
  simp [delayMs]

@[simp] theorem advance_trace (src dst : Fsm) (s : State) : (advance src dst s).trace = s.trace := by
  unfold advance
  split <;> rfl

/-- Two logical bytes a row (R113). -/
theorem sendGlyphRows_trace_length (rows : List Byte) (cmd : Byte) (s : State) :
    (sendGlyphRows rows cmd s).trace.length = s.trace.length + 20 * rows.length := by
  induction rows generalizing cmd s with
  | nil => rfl
  | cons row rows ih =>
    rw [sendGlyphRows, ih, sendByte_trace_length, sendByte_trace_length, List.length_cons]
    omega

/-- Eight rows a slot (R100). -/
theorem sendGlyphs_trace_length (rom : Fin 8 → Bitmap) (slots : List (Fin 8)) (s : State) :
    (sendGlyphs rom slots s).trace.length = s.trace.length + 160 * slots.length := by
  induction slots generalizing s with
  | nil => rfl
  | cons k ks ih =>
    rw [sendGlyphs, ih, glyphBody, sendGlyphRows_trace_length, Vector.length_toList, List.length_cons]
    omega

@[simp] theorem actGlyphLoad_trace_length (rom : Fin 8 → Bitmap) (s : State) :
    (actGlyphLoad rom s).trace.length = s.trace.length + 1280 := by
  simp [actGlyphLoad, sendGlyphs_trace_length, glyphSlots]

/-! FORCE8 in its three states (R92 to R94). -/

@[simp] theorem actForce8_setFsm_force8BitA (s : State) :
    actForce8 (s.setFsm .force8BitA)
      = (delayMs Config.tForce8Ms (sendForce8 (s.setFsm .force8BitA))).setFsm .force8BitB := rfl

@[simp] theorem actForce8_setFsm_force8BitB (s : State) :
    actForce8 (s.setFsm .force8BitB) = (sendForce8 (s.setFsm .force8BitB)).setFsm .force8BitC := rfl

@[simp] theorem actForce8_setFsm_force8BitC (s : State) :
    actForce8 (s.setFsm .force8BitC) = (sendForce8 (s.setFsm .force8BitC)).setFsm .switch4Bit := rfl

/-- Steps 1 to 4 of INIT: two waits and three enable cycles (R91 to R94). -/
theorem force8Cycles_trace_length (s : State) :
    (actForce8 (actForce8 (actForce8 (actPowerWait s)))).trace.length = s.trace.length + 17 := by
  simp [actPowerWait, sendForce8]

theorem runInit_trace_length (glyphs : Bool) (rom : Fin 8 → Bitmap) (s : State) :
    (runInit glyphs rom s).trace.length = s.trace.length + initEventCount glyphs := by
  cases glyphs <;>
    simp [runInit, initEventCount, actSwitch4, actFunctionSet, actDisplayOn, actClear, actEntryMode,
      force8Cycles_trace_length]

/-- The configuration write of INIT issues no event (R90). -/
theorem HostEffect.eventCount {i : Instr} {s t : State} (h : HostEffect i s t) (hi : isInit i = true) :
    t.trace.length = s.trace.length + initEventCount Config.hasGlyphs := by
  rcases h with ⟨c, r, a, n, e, w, k, b, -, -, -, rfl⟩ | ⟨on, rfl, -, -⟩ | ⟨bs, hno, -, -, -⟩
  · rw [runInit_trace_length, configure_trace]
  · cases hi
  · rw [hno] at hi
    cases hi

theorem startFsm_of_not_isInit {f : Fsm} {i : Instr} (h : isInit i = false) : startFsm f i = f := by
  cases i with
  | init c r a n e w k b => cases h
  | _ => rfl

/-- The FSM of a block stuck in a host operation when `done` of its events have completed (R85, R102). -/
theorem HostEffect.fsmAfter_startFsm {i : Instr} {s t : State} (h : HostEffect i s t) {done : Nat}
    (hdone : done < t.trace.length - s.trace.length) :
    fsmAfter Config.hasGlyphs 11 (startFsm s.fsm i) done = if isInit i then initFsmAfter done else s.fsm := by
  cases hi : isInit i with
  | true =>
    have hcount := h.eventCount hi
    obtain ⟨o, rfl⟩ := exists_operands_of_isInit hi
    exact fsmAfter_eq_initFsmAfter (by omega)
  | false =>
    have hready : s.fsm = .ready := (h.config_eq hi).2.symm.trans h.fsm_ready
    rw [startFsm_of_not_isInit hi, hready, fsmAfter_ready]
    rfl

end Sys2Proof.Machine
end

section
/-! The state in which an operation is stuck (spec 40_transfer_primitives R85). -/

namespace Sys2Proof.Machine

theorem noReset_dones_hang (acks : List Bool) (ins : List PortIn) : noReset (dones acks ++ .hang :: ins) = true := by
  cases acks <;> rfl

/-- Between operations a step whose operation hangs at an event leaves the block stuck there. -/
theorem step_of_hang {s t : State} {i : Instr} {rest : List Byte} {acks : List Bool} {ins : List PortIn}
    (hc : s.cmdReady = true) (hd : decode s.cmd = .ok i rest) (hx : exec i { s with cmd := rest } = .next t)
    (hlt : acks.length < t.trace.length - s.trace.length) (hp : s.port = dones acks ++ .hang :: ins) :
    step s = .next { stuckAt (startFsm s.fsm i) s t (acks.length + 1) with port := ins } := by
  have hn : noReset s.port = true := by rw [hp, noReset_dones_hang]
  have hsettle : settle (startFsm s.fsm i) s t
      = { stuckAt (startFsm s.fsm i) s t (acks.length + 1) with port := ins } := by
    rw [settle, hp, carry_hung _ _ _ hlt]
  rw [step_command hn hc, runCommand, hd]
  exact (congrArg (settleOutcome _ s) hx).trans (congrArg Host.Outcome.next hsettle)

/-- The latch of a stuck block: the last frame among the events issued, if there is one (R19, R85). -/
theorem stuckAt_latch (f : Fsm) (s t : State) (k : Nat) :
    (stuckAt f s t k).latch = (frames ((stuckAt f s t k).trace.drop s.trace.length)).getLast?.getD s.latch := by
  simp [stuckAt]

/-- Settles O11, from the laws of `stuckAt`. -/
theorem stuckState : Obligations.StuckState := by
  intro s t i rest acks ins hc hd hx hlt hp
  have heffect := hostEffect_of_exec (format_of_decode hd) hx
  obtain ⟨hcmd, -, -⟩ := heffect.inputs_eq
  obtain ⟨es, htrace⟩ := heffect.appendsShaped.trace_grows
  exact ⟨_, step_of_hang hc hd hx hlt hp, rfl, stuckAt_trace (startFsm s.fsm i) s t _ es htrace,
    stuckAt_latch (startFsm s.fsm i) s t _, rfl, rfl, hcmd, rfl, heffect.fsmAfter_startFsm hlt⟩

end Sys2Proof.Machine
end

section
/-! What the action of each FSM state of a running INIT does (spec 41_init_fsm R92 to R99, R102). -/

namespace Sys2Proof.Machine

/-- The state after a logical Command nibble has been sent by itself: the latch and the trace, nothing else. -/
def State.afterNibble (s : State) (n : Nibble) : State :=
  { s with
    latch := frameLo s.pins s.bl (posNibble s.nib n) .command
    trace := s.trace ++ commandNibble s.wiring n }

theorem sendNibble_posNibble (n : Nibble) (s : State) :
    sendNibble (posNibble s.nib n) .command s = s.afterNibble n :=
  sendNibble_eq _ _ _

theorem sendForce8_eq (s : State) : sendForce8 s = s.afterNibble 3#4 := sendNibble_posNibble _ s

theorem advance_of_eq {src : Fsm} (dst : Fsm) {s : State} (h : s.fsm = src) : advance src dst s = s.setFsm dst :=
  if_pos h

theorem advance_of_ne {src : Fsm} (dst : Fsm) {s : State} (h : s.fsm ≠ src) : advance src dst s = s :=
  if_neg h

/-- Where the FSM's action is not `i`, the FSM is in none of the states whose action `i` is. -/
theorem fsm_ne_of_emission_ne {s : State} {src : Fsm} {i : Instr} (hsrc : src.emission = some i)
    (h : s.fsm.emission ≠ some i) : s.fsm ≠ src :=
  fun heq => h (heq ▸ hsrc)

/-! FORCE8 by the FSM state, then the five other emissions of INIT in one equation each. -/

theorem actForce8_of_force8BitA {s : State} (h : s.fsm = .force8BitA) :
    actForce8 s = (delayMs 5 (s.afterNibble 3#4)).setFsm .force8BitB := by
  rw [actForce8, h, sendForce8_eq, Config.tForce8Ms]

theorem actForce8_of_force8BitB {s : State} (h : s.fsm = .force8BitB) :
    actForce8 s = (s.afterNibble 3#4).setFsm .force8BitC := by
  rw [actForce8, h, sendForce8_eq]

theorem actForce8_of_force8BitC {s : State} (h : s.fsm = .force8BitC) :
    actForce8 s = (s.afterNibble 3#4).setFsm .switch4Bit := by
  rw [actForce8, h, sendForce8_eq]

theorem actForce8_of_emission_ne {s : State} (h : s.fsm.emission ≠ some .force8) :
    actForce8 s = s.afterNibble 3#4 := by
  unfold actForce8
  split
  next hfsm => exact absurd hfsm (fsm_ne_of_emission_ne rfl h)
  next hfsm => exact absurd hfsm (fsm_ne_of_emission_ne rfl h)
  next hfsm => exact absurd hfsm (fsm_ne_of_emission_ne rfl h)
  next => exact sendForce8_eq s

theorem actSwitch4_eq (s : State) : actSwitch4 s = advance .switch4Bit .functionSet (s.afterNibble 2#4) := by
  rw [actSwitch4, Config.nibSwitch4, sendNibble_posNibble]

theorem actFunctionSet_eq (s : State) :
    actFunctionSet s = advance .functionSet .displayOn (s.afterBytes [(.command, Config.cmdFunctionSet)]) := by
  rw [actFunctionSet, sendByte_eq]

theorem actDisplayOn_eq (s : State) :
    actDisplayOn s = advance .displayOn .clear (s.afterBytes [(.command, Config.cmdDisplayOn)]) := by
  rw [actDisplayOn, sendByte_eq]

theorem actClear_eq (s : State) :
    actClear s = advance .clear .entryModeSet (delayMs 2 (s.afterBytes [(.command, Config.cmdClear)])) := by
  rw [actClear, sendByte_eq, Config.tClearMs]

theorem actEntryMode_eq (glyphs : Bool) (s : State) :
    actEntryMode glyphs s
      = advance .entryModeSet (afterEntryMode glyphs) (s.afterBytes [(.command, Config.cmdEntryMode)]) := by
  rw [actEntryMode, sendByte_eq]

/-- The events of one logical byte, as `afterBytes` appends them. -/
theorem bytesEvents_singleton (w : Wiring) (b : Mode × Byte) : bytesEvents w [b] = byteEvents w b.2 b.1 := by
  simp [bytesEvents]

/-- CLEAR's byte and its wait, written out (R98). -/
theorem delayMs_afterBytes_singleton (n : Nat) (m : Mode) (v : Byte) (s : State) :
    delayMs n (s.afterBytes [(m, v)]) = { s with
      latch := byteLatch s.wiring v m
      trace := s.trace ++ byteEvents s.wiring v m ++ [.delayMs n] } := by
  rw [← bytesEvents_singleton _ (m, v)]
  rfl

/-- Settles O25: the second and the third state of FORCE8. -/
theorem initNibbleRepeats : Obligations.InitNibbleRepeats :=
  fun _ => ⟨fun h => congrArg Host.Outcome.next (actForce8_of_force8BitB h),
    fun h => congrArg Host.Outcome.next (actForce8_of_force8BitC h)⟩

/-- Settles O26: the first state of FORCE8, and SWITCH4 in its own. -/
theorem initFirstAndLastNibble : Obligations.InitFirstAndLastNibble :=
  fun s => ⟨fun h => congrArg Host.Outcome.next (actForce8_of_force8BitA h),
    fun h => congrArg Host.Outcome.next ((actSwitch4_eq s).trans (advance_of_eq _ h))⟩

/-- Settles O27: each of the four moves on from its own state. -/
theorem initByteSteps : Obligations.InitByteSteps := by
  intro s
  refine ⟨fun h => ?_, fun h => ?_, fun h => ?_, fun h => ?_⟩
  · exact congrArg Host.Outcome.next ((actFunctionSet_eq s).trans (advance_of_eq _ h))
  · exact congrArg Host.Outcome.next ((actDisplayOn_eq s).trans (advance_of_eq _ h))
  · refine congrArg Host.Outcome.next ((actClear_eq s).trans ?_)
    rw [delayMs_afterBytes_singleton]
    exact advance_of_eq _ h
  · exact congrArg Host.Outcome.next ((actEntryMode_eq _ s).trans (advance_of_eq _ h))

/-- Settles O28: an emission moves the FSM on from its own states only. -/
theorem initEmissionsOutsideTheirState : Obligations.InitEmissionsOutsideTheirState := by
  intro s
  refine ⟨fun h => ?_, fun h => ?_, fun h => ?_, fun h => ?_, fun h => ?_, fun h => ?_⟩
  · exact congrArg Host.Outcome.next (actForce8_of_emission_ne h)
  · exact congrArg Host.Outcome.next ((actSwitch4_eq s).trans (advance_of_ne _ (fsm_ne_of_emission_ne rfl h)))
  · exact congrArg Host.Outcome.next ((actFunctionSet_eq s).trans (advance_of_ne _ (fsm_ne_of_emission_ne rfl h)))
  · exact congrArg Host.Outcome.next ((actDisplayOn_eq s).trans (advance_of_ne _ (fsm_ne_of_emission_ne rfl h)))
  · rw [← delayMs_afterBytes_singleton]
    exact congrArg Host.Outcome.next ((actClear_eq s).trans (advance_of_ne _ (fsm_ne_of_emission_ne rfl h)))
  · exact congrArg Host.Outcome.next ((actEntryMode_eq _ s).trans (advance_of_ne _ (fsm_ne_of_emission_ne rfl h)))

end Sys2Proof.Machine
end

section
/-! A step inside INIT, and a block at rest (spec 41_init_fsm R91 to R102). -/

namespace Sys2Proof.Machine

theorem noReset_of_quiet {ins : List PortIn} (h : quiet ins = true) : noReset ins = true := by
  cases ins with
  | nil => rfl
  | cons p ins =>
    cases p with
    | done ack => rfl
    | reset => simp [quiet] at h
    | hang => rfl

/-- The action of an FSM state that has an emission is that emission (R92 to R99). -/
theorem fsmAction_of_emission {s : State} {i : Instr} (h : s.fsm.emission = some i) :
    fsmAction s = some (exec i s) := by
  unfold fsmAction
  split <;> simp_all [Fsm.emission]

/-- A quiet environment lets the action of the FSM's state complete. -/
theorem step_of_fsmAction_of_quiet {s t : State} (hw : s.waiting = false) (hq : quiet s.port = true)
    (h : fsmAction s = some (.next t)) :
    step s = .next { t with port := s.port.drop (t.trace.length - s.trace.length) } := by
  rw [step_eq (noReset_of_quiet hq) hw, h]
  exact congrArg Host.Outcome.next (settle_quiet _ _ _ hq)

/-- Settles O6: the action of the FSM's state is its emission, and a quiet environment lets it complete. -/
theorem stepRunsFsmEmission : Obligations.StepRunsFsmEmission := by
  intro s t i hw hi hq hx
  exact step_of_fsmAction_of_quiet hw hq (by rw [fsmAction_of_emission hi, hx])

/-- Settles O7: between operations a step is the next command, and an incomplete one is none. -/
theorem idleBlockRests : Obligations.IdleBlockRests := by
  intro s hready hnoReset hd
  rw [step_command hnoReset hready, runCommand, hd]

end Sys2Proof.Machine
end

section
/-! The whole of INIT: its machine in one equation (spec 41_init_fsm R90 to R103). -/

namespace Sys2Proof.Machine

/-! A move of the FSM changes nothing a transfer reads, so the moves of INIT gather behind its transfers. -/

theorem setFsm_setFsm (s : State) (f g : Fsm) : (s.setFsm f).setFsm g = s.setFsm g := rfl

theorem delayMs_setFsm (n : Nat) (s : State) (f : Fsm) : delayMs n (s.setFsm f) = (delayMs n s).setFsm f := rfl

theorem afterNibble_setFsm (s : State) (f : Fsm) (n : Nibble) :
    (s.setFsm f).afterNibble n = (s.afterNibble n).setFsm f := rfl

theorem afterBytes_setFsm (s : State) (f : Fsm) (bs : List (Mode × Byte)) :
    (s.setFsm f).afterBytes bs = (s.afterBytes bs).setFsm f := rfl

theorem advance_setFsm (src dst : Fsm) (s : State) : advance src dst (s.setFsm src) = s.setFsm dst :=
  advance_of_eq _ rfl

/-- Steps 1 to 9 of INIT: the machine from `PowerWait` until it leaves `EntryModeSet` (R91 to R99). -/
def initSteps (glyphs : Bool) (s : State) : State :=
  actEntryMode glyphs (actClear (actDisplayOn (actFunctionSet (actSwitch4
    (actForce8 (actForce8 (actForce8 (actPowerWait s))))))))

theorem runInit_eq_initSteps (glyphs : Bool) (rom : Fin 8 → Bitmap) (s : State) :
    runInit glyphs rom s = if glyphs then actGlyphLoad rom (initSteps glyphs s) else initSteps glyphs s := rfl

/-- Steps 1 to 5 of INIT: the power wait and the four single nibbles (R91 to R95). -/
def State.afterNibbles (s : State) : State :=
  (((delayMs 5 ((delayMs 15 s).afterNibble 3#4)).afterNibble 3#4).afterNibble 3#4).afterNibble 2#4

theorem nibbleSteps_eq (s : State) :
    actSwitch4 (actForce8 (actForce8 (actForce8 (actPowerWait s)))) = s.afterNibbles.setFsm .functionSet := by
  have h1 : actPowerWait s = (delayMs 15 s).setFsm .force8BitA := rfl
  rw [h1, actForce8_setFsm_force8BitA, actForce8_setFsm_force8BitB, actForce8_setFsm_force8BitC, actSwitch4_eq]
  simp only [sendForce8_eq, Config.tForce8Ms, afterNibble_setFsm, delayMs_setFsm, setFsm_setFsm, advance_setFsm,
    State.afterNibbles]

/-- Steps 1 to 8 of INIT: after the nibbles three Command bytes, and the wait of CLEAR (R96 to R98). -/
def State.afterClear (s : State) : State :=
  delayMs 2 (s.afterNibbles.afterBytes
    [(.command, Config.cmdFunctionSet), (.command, Config.cmdDisplayOn), (.command, Config.cmdClear)])

theorem initSteps_eq (glyphs : Bool) (s : State) :
    initSteps glyphs s
      = (s.afterClear.afterBytes [(.command, Config.cmdEntryMode)]).setFsm (afterEntryMode glyphs) := by
  rw [initSteps, nibbleSteps_eq, actFunctionSet_eq, actDisplayOn_eq, actClear_eq, actEntryMode_eq]
  simp only [afterBytes_setFsm, delayMs_setFsm, advance_setFsm, afterBytes_append, List.cons_append, List.nil_append,
    State.afterClear]

/-! The glyphs of step 10 as logical bytes. -/

/-- Rows sent from a Command byte on are rows each behind its own Command byte (R113). -/
theorem rowBytes_ofFn {n : Nat} (rows : Fin n → Byte) (cmd : Byte) :
    rowBytes (List.ofFn rows) cmd
      = (List.finRange n).flatMap fun r => [(.command, cmd + BitVec.ofNat 8 r.val), (.data, rows r)] := by
  induction n generalizing cmd with
  | zero => rfl
  | succ n ih =>
    have hcmd (r : Fin n) : cmd + 1#8 + BitVec.ofNat 8 r.val = cmd + BitVec.ofNat 8 r.succ.val := by
      rw [Fin.val_succ, BitVec.ofNat_add, BitVec.add_comm (BitVec.ofNat 8 r.val), BitVec.add_assoc]
    rw [List.ofFn_succ, rowBytes, ih, List.finRange_succ, List.flatMap_cons, List.flatMap_map]
    simp [hcmd]

theorem rowBytes_cgramBase (bitmap : Bitmap) (slot : Byte) :
    rowBytes bitmap.toList (cgramBase slot) = glyphBytes bitmap slot := by
  have hrows : bitmap.toList = List.ofFn bitmap.get := by
    refine List.ext_getElem (by simp) fun k hk hk' => ?_
    rw [List.getElem_ofFn]
    rfl
  rw [hrows, rowBytes_ofFn]
  rfl

/-- Step 10 of INIT (R100). -/
theorem actGlyphLoad_glyphRom (s : State) :
    actGlyphLoad Config.glyphRom s = (s.afterBytes romBytes).setFsm .ready := by
  rw [actGlyphLoad, sendGlyphs_eq]
  simp only [rowBytes_cgramBase]
  rfl

/-! The latch and the events of byte lists, and the waits among events. -/

theorem bytesEvents_append (w : Wiring) (xs ys : List (Mode × Byte)) :
    bytesEvents w (xs ++ ys) = bytesEvents w xs ++ bytesEvents w ys :=
  List.flatMap_append

theorem bytesLatch_append (w : Wiring) (before : Byte) (xs ys : List (Mode × Byte)) :
    bytesLatch w before (xs ++ ys) = bytesLatch w (bytesLatch w before xs) ys := by
  cases hys : ys.getLast? with
  | none => simp [List.getLast?_eq_none_iff.1 hys, bytesLatch]
  | some y => simp [bytesLatch, hys]

theorem delaysOf_append (xs ys : List Event) : delaysOf (xs ++ ys) = delaysOf xs ++ delaysOf ys := by
  induction xs with
  | nil => rfl
  | cons e xs ih => cases e <;> simp [delaysOf, ih]

theorem delaysOf_nibbleEvents (w : Wiring) (p : Byte) (m : Mode) : delaysOf (nibbleEvents w p m) = [] := rfl

theorem delaysOf_bytesEvents (w : Wiring) (bs : List (Mode × Byte)) : delaysOf (bytesEvents w bs) = [] := by
  induction bs with
  | nil => rfl
  | cons b bs ih =>
    have hcons : bytesEvents w (b :: bs) = byteEvents w b.2 b.1 ++ bytesEvents w bs := rfl
    rw [hcons, byteEvents, delaysOf_append, delaysOf_append, ih]
    rfl

/-! What the transfers of INIT leave and append. -/

@[simp] theorem delayMs_trace (n : Nat) (s : State) : (delayMs n s).trace = s.trace ++ [.delayMs n] := rfl

@[simp] theorem delayMs_wiring (n : Nat) (s : State) : (delayMs n s).wiring = s.wiring := rfl

@[simp] theorem afterNibble_trace (s : State) (n : Nibble) :
    (s.afterNibble n).trace = s.trace ++ commandNibble s.wiring n := rfl

@[simp] theorem afterNibble_wiring (s : State) (n : Nibble) : (s.afterNibble n).wiring = s.wiring := rfl

@[simp] theorem afterBytes_latch (s : State) (bs : List (Mode × Byte)) :
    (s.afterBytes bs).latch = bytesLatch s.wiring s.latch bs := rfl

@[simp] theorem afterBytes_trace (s : State) (bs : List (Mode × Byte)) :
    (s.afterBytes bs).trace = s.trace ++ bytesEvents s.wiring bs := rfl

@[simp] theorem afterClear_wiring (s : State) : s.afterClear.wiring = s.wiring := by
  simp [State.afterClear, State.afterNibbles]

/-- INIT is its transfers and then one move of the FSM, for both values of `HAS_GLYPHS` (R99 to R103). -/
theorem runInit_eq_setFsm (s : State) :
    runInit Config.hasGlyphs Config.glyphRom s
      = (s.afterClear.afterBytes
          ([(.command, Config.cmdEntryMode)] ++ (if Config.hasGlyphs then romBytes else []))).setFsm .ready := by
  rw [runInit_eq_initSteps, initSteps_eq]
  cases Config.hasGlyphs with
  | false => simp [afterEntryMode]
  | true => simp [actGlyphLoad_glyphRom, afterBytes_setFsm, setFsm_setFsm, afterBytes_append]

theorem runInit_latch (s : State) :
    (runInit Config.hasGlyphs Config.glyphRom s).latch = bytesLatch s.wiring 0x00#8 initBytes := by
  rw [runInit_eq_setFsm, State.setFsm_latch, afterBytes_latch, bytesLatch_append, initBytes, bytesLatch_append]
  simp [bytesLatch]

theorem runInit_trace (s : State) :
    (runInit Config.hasGlyphs Config.glyphRom s).trace = s.trace ++ initEvents s.wiring := by
  have hglyphs : bytesEvents s.wiring (if Config.hasGlyphs then romBytes else [])
      = if Config.hasGlyphs then bytesEvents s.wiring romBytes else [] := by
    split <;> rfl
  rw [runInit_eq_setFsm]
  simp only [State.afterClear, State.afterNibbles, State.setFsm_trace, afterBytes_trace, delayMs_trace,
    afterNibble_trace, afterBytes_wiring, delayMs_wiring, afterNibble_wiring, bytesEvents_append, hglyphs, initEvents,
    List.append_assoc]

/-- INIT in one equation. -/
theorem runInit_eq (s : State) :
    runInit Config.hasGlyphs Config.glyphRom s = { s with
      fsm := .ready, latch := bytesLatch s.wiring 0x00#8 initBytes, trace := s.trace ++ initEvents s.wiring } := by
  have h := (runInit_transfers Config.hasGlyphs Config.glyphRom s).eq_update
  rwa [runInit_latch, runInit_trace, runInit_fsm] at h

end Sys2Proof.Machine
end

section
/-! INIT from its operands, and INIT run state by state (spec 41_init_fsm R90, R102, R103; 30_encoding R57). -/

namespace Sys2Proof.Machine

/-- Operands in the ranges of R57 pass INIT's own check. -/
theorem InitOperands.initLegal_of_legal {o : InitOperands} (h : o.legal) :
    initLegal o.columns o.rows o.busAddress o.nibbleOrder o.enableBit o.rwBit o.rsBit o.backlightBit = true := by
  obtain ⟨⟨hcolumns, -⟩, ⟨hrows, hrows4⟩, haddress, horder, henable, hrw, hrs, hbacklight⟩ := h
  have horder1 : o.nibbleOrder.toNat ≤ 1 := by rcases horder with h | h <;> simp [h]
  simp [initLegal, hcolumns, hrows, hrows4, haddress, horder1, henable, hrw, hrs, hbacklight]

/-- The configuration write of INIT, the operands given as a record (R90). -/
def InitOperands.configure (o : InitOperands) (s : State) : State :=
  Machine.configure o.columns o.rows o.busAddress o.nibbleOrder o.enableBit o.rwBit o.rsBit o.backlightBit s

/-- The configuration registers in numbers, for legal operands (R57, R90). -/
theorem InitOperands.configure_eq {o : InitOperands} (h : o.legal) (s : State) :
    o.configure s = { s with
      nib := o.pins.nib, enPos := o.pins.enPos, rwPos := o.pins.rwPos, rsPos := o.pins.rsPos, blPos := o.pins.blPos
      addr := BitVec.ofNat 7 o.busAddress.toNat, maxCol := BitVec.ofNat 8 (o.columns.toNat - 1)
      maxRow := BitVec.ofNat 8 (o.rows.toNat - 1), fsm := .powerWait } := by
  obtain ⟨⟨hcolumns, -⟩, ⟨hrows, -⟩, -, horder, -⟩ := h
  have hcol : o.columns - 1#8 = BitVec.ofNat 8 (o.columns.toNat - 1) := by bv_omega
  have hrow : o.rows - 1#8 = BitVec.ofNat 8 (o.rows.toNat - 1) := by bv_omega
  have hnib : o.nibbleOrder.getLsbD 0 = decide (o.nibbleOrder = 1#8) := by rcases horder with h | h <;> rw [h] <;> rfl
  simp only [InitOperands.configure, Machine.configure, InitOperands.pins, hcol, hrow, hnib, BitVec.ofNat_toNat]

theorem InitOperands.configure_wiring {o : InitOperands} (h : o.legal) (s : State) :
    (o.configure s).wiring = o.wiring s.bl := by
  rw [o.configure_eq h]
  rfl

/-- The state after the power wait is the first move of the machine from the configured state (R91). -/
theorem afterPowerWait_eq {o : InitOperands} (h : o.legal) (s : State) :
    s.afterPowerWait o = actPowerWait (o.configure s) := by
  rw [o.configure_eq h]
  rfl

/-- An INIT with legal operands runs from both idle states (R90, R140). -/
theorem exec_init_of_legal {o : InitOperands} {s : State} (h : o.legal) (hidle : s.fsm.idle = true) :
    exec o.instr s = .next (runInit Config.hasGlyphs Config.glyphRom (o.configure s)) :=
  (if_pos hidle).trans (if_pos (InitOperands.initLegal_of_legal h))

/-- Settles O29: the configuration write, then `runInit_eq`. -/
theorem initCompletes : Obligations.InitCompletes := by
  intro o s h hfsm
  have hidle : s.fsm.idle = true := by rcases hfsm with hf | hf <;> rw [hf] <;> rfl
  rw [exec_init_of_legal h hidle, runInit_eq, o.configure_wiring h, o.configure_eq h]
  rfl

/-- The waits of an INIT: the power wait, the first FORCE8's and CLEAR's (R91, R92, R98). -/
theorem delaysOf_initEvents (w : Wiring) : delaysOf (initEvents w) = [15, 5, 2] := by
  have hglyphs : delaysOf (if Config.hasGlyphs then bytesEvents w romBytes else []) = [] := by
    split
    · exact delaysOf_bytesEvents w romBytes
    · rfl
  simp [initEvents, delaysOf_append, delaysOf_bytesEvents, commandNibble, delaysOf_nibbleEvents, hglyphs, delaysOf]

/-- Settles O31: the configuration write issues no event, so the events of INIT are those of `runInit_trace`. -/
theorem InitOperands.initEventCount : Obligations.InitEventCount := by
  intro o s t hx
  have hcount := (hostEffect_of_exec rfl hx).eventCount rfl
  obtain ⟨-, -, rfl⟩ := initWith_next hx
  refine ⟨hcount, ?_⟩
  rw [runInit_trace, configure_trace, List.drop_left, delaysOf_initEvents]

/-! INIT state by state. -/

/-- `n` actions of the FSM's states, one after the other, lead from `s` to `t` (R102). -/
inductive FsmRun : Nat → State → State → Prop
  | nil (s : State) : FsmRun 0 s s
  | cons {n : Nat} {s t u : State} (action : fsmAction s = some (.next t)) (rest : FsmRun n t u) : FsmRun (n + 1) s u

theorem FsmRun.snoc {n : Nat} {s t u : State} (h : FsmRun n s t) (action : fsmAction t = some (.next u)) :
    FsmRun (n + 1) s u := by
  induction h with
  | nil s => exact .cons action (.nil u)
  | cons first _ ih => exact .cons first (ih action)

/-- With no input pending, a run of the FSM is a run of the machine: no action waits or touches the inputs. -/
theorem FsmRun.core_run {n : Nat} {s t : State} (h : FsmRun n s t) (hw : s.waiting = false) (hp : s.port = []) :
    core.run n s = .next t := by
  induction h with
  | nil s => rfl
  | @cons n s t u action _ ih =>
    obtain ⟨-, -, -, hport, hwaiting⟩ := (fsmAction_transfers action).keeps
    have hstep : core.step s = .next t := step_of_fsmAction hw hp action
    calc core.run (n + 1) s
      _ = core.run n t := by simp only [Host.Core.run, hstep]
      _ = .next u := ih (hwaiting.trans hw) (hport.trans hp)

/-- Steps 2 to 9 of INIT are the actions of eight FSM states (R92 to R99). -/
theorem fsmRun_initSteps (s : State) : FsmRun 8 (actPowerWait s) (initSteps Config.hasGlyphs s) :=
  .cons rfl (.cons rfl (.cons rfl (.cons rfl (.cons rfl (.cons rfl (.cons rfl (.cons rfl (.nil _))))))))

/-- INIT from the power wait on: one more action where there are glyphs (R99, R100). -/
theorem fsmRun_runInit (s : State) :
    FsmRun (if Config.hasGlyphs then 9 else 8) (actPowerWait s) (runInit Config.hasGlyphs Config.glyphRom s) := by
  have hsteps := fsmRun_initSteps s
  rw [runInit_eq_initSteps]
  cases hglyphs : Config.hasGlyphs with
  | false => rwa [hglyphs] at hsteps
  | true =>
    rw [hglyphs] at hsteps
    exact hsteps.snoc rfl

/-- Settles O32: both sides are the run of the FSM from the configured state. -/
theorem initIsFsmRun : Obligations.InitIsFsmRun := by
  intro o s h hready hport
  obtain ⟨hidle, hwaiting⟩ := (cmdReady_iff s).1 hready
  rw [exec_init_of_legal h hidle, afterPowerWait_eq h]
  exact (fsmRun_runInit (o.configure s)).core_run hwaiting hport

end Sys2Proof.Machine
end

section
/-! The backlight flag in the frames (spec 40_transfer_primitives R80; 42_display_control R112, R114). -/

namespace Sys2Proof.Machine

/-- A byte is its bits at the eight positions of a pin map (R50). -/
theorem byte_eq_of_getLsbD_pos {x y : Byte} (h : ∀ q : Pos, x.getLsbD q.toNat = y.getLsbD q.toNat) : x = y := by
  refine BitVec.eq_of_getLsbD_eq fun k hk => ?_
  simpa only [BitVec.toNat_ofNat, Nat.mod_eq_of_lt hk] using h (BitVec.ofNat 3 k)

/-- The first frame carries the flag where nothing else stands at `BL_POS` (R114). -/
theorem frameHi_blPos (pm : PinMap) (bl : Bool) (p : Byte) (m : Mode) (h : pm.backlightApart) :
    (frameHi pm bl p m).getLsbD pm.blPos.toNat = bl := by
  obtain ⟨hen, hrs, hdata⟩ := h
  simp [frameHi_getLsbD, frameOut_getLsbD, hen, hrs, hdata]

/-- Two bytes that agree everywhere but at a position, where they are on and off, differ by its bit. -/
theorem xor_eq_bit {x y : Byte} {p : Pos} (hon : x.getLsbD p.toNat = true) (hoff : y.getLsbD p.toNat = false)
    (hrest : ∀ q, q ≠ p → x.getLsbD q.toNat = y.getLsbD q.toNat) : x ^^^ y = bit p := by
  refine byte_eq_of_getLsbD_pos fun q => ?_
  rw [BitVec.getLsbD_xor, bit_getLsbD_pos]
  by_cases hq : q = p
  · simp [hq, hon, hoff]
  · simp [hq, hrest q hq]

/-- The flag changes the first frame of a transfer at `BL_POS` alone (R114 (c)). -/
theorem frameHi_xor_flag (pm : PinMap) (p : Byte) (m : Mode) (h : pm.backlightApart) :
    frameHi pm true p m ^^^ frameHi pm false p m = bit pm.blPos :=
  xor_eq_bit (frameHi_blPos pm true p m h) (frameHi_blPos pm false p m h)
    fun q hq => by simp [frameHi_getLsbD, frameOut_getLsbD, hq]

/-- The flag changes the second frame of a transfer at `BL_POS` alone (R114 (c)). -/
theorem frameLo_xor_flag (pm : PinMap) (p : Byte) (m : Mode) (h : pm.backlightApart) :
    frameLo pm true p m ^^^ frameLo pm false p m = bit pm.blPos :=
  xor_eq_bit (frameLo_blPos pm true p m h) (frameLo_blPos pm false p m h)
    fun q hq => by simp [frameLo_getLsbD, frameOut_getLsbD, hq]

/-- From `s` to `t` events have been appended to the trace whose frames all carry the flag of `t` (R114 (a)). -/
def AppendsLit (s t : State) : Prop :=
  ∃ es, t.trace = s.trace ++ es ∧ ∀ f ∈ frames es, f.getLsbD t.blPos.toNat = t.bl

/-- More events, at whatever phase of the bus their frames are read, the flag and its position kept. -/
theorem AppendsLit.append {s t u : State} {es : List Event} (h : AppendsLit s t) (hpos : u.blPos = t.blPos)
    (hbl : u.bl = t.bl) (hu : u.trace = t.trace ++ es)
    (hes : ∀ phase, ∀ f ∈ framesFrom phase es, f.getLsbD t.blPos.toNat = t.bl) : AppendsLit s u := by
  obtain ⟨before, htrace, hbefore⟩ := h
  refine ⟨before ++ es, by rw [hu, htrace, List.append_assoc], fun f hf => ?_⟩
  rw [frames, framesFrom_append, List.mem_append] at hf
  rw [hpos, hbl]
  exact hf.elim (hbefore f) (hes _ f)

theorem pins_eq_of_config_eq {s t : State} (h : t.config = s.config) : t.pins = s.pins := congrArg Prod.fst h

/-- Enable cycles carry the flag in both their frames (R114 (a)). -/
theorem Transfers.appendsLit {s t : State} (h : Transfers s t) (hs : s.pins.backlightApart) : AppendsLit s t := by
  induction h with
  | none => exact ⟨[], by simp, by simp [frames, framesFrom]⟩
  | @nibble t p m ht ih =>
    have hapart : t.pins.backlightApart := by rwa [pins_eq_of_config_eq ht.config_eq]
    rw [sendNibble_eq]
    refine ih.append rfl rfl rfl fun phase f hf => ?_
    rw [nibbleEvents, framesFrom_enableCycle, List.mem_pair] at hf
    rcases hf with rfl | rfl
    · exact frameHi_blPos t.pins t.bl p m hapart
    · exact frameLo_blPos t.pins t.bl p m hapart
  | wait n _ ih => exact ih.append rfl rfl rfl fun phase f hf => by simp [framesFrom_delayMs] at hf
  | move f _ ih => exact ih

/-- The frame SETBACKLIGHT writes carries the flag it stores, wherever `BL_POS` is (R112). -/
theorem appendsLit_setBacklight (on : Byte) (s : State) : AppendsLit s (setBacklight on s) := by
  rw [setBacklight_eq]
  refine ⟨_, rfl, fun f hf => ?_⟩
  rw [frames, framesFrom_bareWrite, List.mem_singleton] at hf
  rw [hf, relight_getLsbD, if_pos rfl]

/-- R114 (a) for every host operation; INIT writes its frames under its new pin map. -/
theorem HostEffect.appendsLit {i : Instr} {s t : State} (h : HostEffect i s t) (ht : t.pins.backlightApart) :
    AppendsLit s t := by
  rcases h with ⟨c, r, a, n, e, w, k, b, -, -, -, rfl⟩ | ⟨on, -, -, rfl⟩ | ⟨bs, -, -, -, rfl⟩
  · have hrun := runInit_transfers Config.hasGlyphs Config.glyphRom (configure c r a n e w k b s)
    rw [pins_eq_of_config_eq hrun.config_eq] at ht
    exact hrun.appendsLit ht
  · exact appendsLit_setBacklight on s
  · exact (Transfers.afterBytes s bs).appendsLit ht

/-- The flag a legal operand stores (R57, R112). -/
theorem onFlag_eq {on : Byte} (h : onLegal on = true) : onFlag on = decide (on = 1#8) := by
  revert on; decide

theorem setBacklight_bl (on : Byte) (s : State) : (setBacklight on s).bl = onFlag on := by
  rw [setBacklight_eq]

/-- Settles O22: the frames by `HostEffect.appendsLit`, the flag by the inversion of `exec`, the two flags compared
position by position. -/
theorem backlightLaws : Obligations.BacklightLaws := by
  refine ⟨fun i s t hi hx hapart => ?carries, fun on s t hx => ?stores, fun pm p m hapart => ?differ⟩
  case carries =>
    have h := hostEffect_of_exec hi hx
    obtain ⟨es, htrace, hes⟩ := h.appendsLit hapart
    exact ⟨by rwa [htrace, List.drop_left], h.bl_eq⟩
  case stores =>
    obtain ⟨-, hlegal, rfl⟩ := whenReady_next.1 hx
    rw [setBacklight_bl, onFlag_eq hlegal]
  case differ => exact ⟨frameHi_xor_flag pm p m hapart, frameLo_xor_flag pm p m hapart⟩

/-- Settles O37: the byte is the recomputed latch. -/
theorem setBacklightCompletes : Obligations.SetBacklightCompletes := by
  intro on s hready hon
  have hlegal : onLegal on = true := by rcases hon with rfl | rfl <;> rfl
  rw [← onFlag_eq hlegal]
  refine ⟨relight s.latch s.blPos (onFlag on), ?effect, fun k => ?bits⟩
  case effect =>
    rw [← setBacklight_eq]
    exact whenReady_next.2 ⟨hready, hlegal, rfl⟩
  case bits =>
    rw [BitVec.getLsbD_eq_getElem k.isLt, BitVec.getLsbD_eq_getElem k.isLt, relight_getElem]

/-- A latch whose backlight bit is the flag already is left as it is (R112). -/
theorem relight_relight (latch : Byte) (p : Pos) (bl : Bool) : relight (relight latch p bl) p bl = relight latch p bl :=
  byte_eq_of_getLsbD_pos fun q => by
    rw [relight_getLsbD]
    split
    next hq => rw [relight_getLsbD, if_pos hq]
    next => rfl

/-- Settles O38: the second one recomputes the latch the first one left. -/
theorem setBacklightAgain : Obligations.SetBacklightAgain := by
  intro on s t hx
  obtain ⟨hready, hlegal, rfl⟩ := whenReady_next.1 hx
  refine whenReady_next.2 ⟨?ready, hlegal, ?effect⟩
  case ready => rw [setBacklight_eq]; exact hready
  case effect => simp only [setBacklight_eq, relight_relight]

end Sys2Proof.Machine
end

section
/-! Cursor addresses in numbers, and the operations that send them (spec 30_encoding R61, R73, R76; 42_display_control
R110, R111, R115). -/

namespace Sys2Proof.Machine

/-- The display takes exactly the logical bytes that were sent, whatever its lines were before (R40). -/
theorem logicalBytes_afterBytes {s : State} (lines : Option Byte) (bs : List (Mode × Byte)) (h : s.pins.sane) :
    logicalBytes s.pins lines ((s.afterBytes bs).trace.drop s.trace.length) = bs := by
  rw [afterBytes_trace, List.drop_left]
  exact logicalViewOfBytes s.wiring bs lines h

/-- The address of a cursor request for a row of the table, its sum taken on 8 bits (R61, D15). -/
theorem ddramAddr_eq_ofNat {maxRow : Byte} (h : maxRow.toNat ≤ 3) (maxCol column row : Byte) :
    ddramAddr maxCol maxRow column row
      = BitVec.ofNat 8 (min column.toNat maxCol.toNat + rowBase (min row.toNat maxRow.toNat)) := by
  have hrow : (minByte row maxRow).toNat ≤ 3 := by rw [minByte_toNat]; omega
  rw [ddramAddr, BitVec.ofNat_add, ← minByte_toNat, ← minByte_toNat, ← rowOff_toNat _ hrow, BitVec.ofNat_toNat,
    BitVec.ofNat_toNat, BitVec.setWidth_eq, BitVec.setWidth_eq]

/-- The Command byte of an address below `0x80`: the OR is a sum (R61). -/
theorem opSetDdram_or_toNat {a : Byte} (h : a.toNat < 0x80) : (Config.opSetDdram ||| a).toNat = 0x80 + a.toNat := by
  rw [BitVec.toNat_or]
  exact (Nat.two_pow_add_eq_or_of_lt (i := 7) h 1).symm

/-- The Command byte of a cursor request whose address stays below `0x80` (R115). -/
theorem cursorByte_toNat {maxCol maxRow column row : Byte} (hrow : maxRow.toNat ≤ 3)
    (h : min column.toNat maxCol.toNat + rowBase (min row.toNat maxRow.toNat) < 0x80) :
    (cursorByte maxCol maxRow column row).toNat
      = 0x80 + (min column.toNat maxCol.toNat + rowBase (min row.toNat maxRow.toNat)) := by
  have haddr : (ddramAddr maxCol maxRow column row).toNat
      = min column.toNat maxCol.toNat + rowBase (min row.toNat maxRow.toNat) := by
    rw [ddramAddr_eq_ofNat hrow, BitVec.toNat_ofNat]
    omega
  rw [cursorByte, opSetDdram_or_toNat (by omega), haddr]

/-- Column 0 of any row is an address of DDRAM (R22). -/
theorem rowBase_lt (r : Nat) : rowBase r < 0x80 := by
  rcases r with _ | _ | _ | _ | r <;> simp [rowBase]

/-- The Command byte of CLEARLINE: column 0 of the clamped row (R111). -/
theorem cursorByte_column_zero_toNat (maxCol : Byte) {maxRow : Byte} (hrow : maxRow.toNat ≤ 3) (row : Byte) :
    (cursorByte maxCol maxRow 0x00#8 row).toNat = 0x80 + rowBase (min row.toNat maxRow.toNat) := by
  have hbase := rowBase_lt (min row.toNat maxRow.toNat)
  have h := cursorByte_toNat (maxCol := maxCol) (column := 0x00#8) (row := row) hrow (by simpa using hbase)
  simpa using h

/-- Settles O33: the address in numbers. -/
theorem setCursorCompletes : Obligations.SetCursorCompletes := by
  intro column row s hready hrow
  rw [← ddramAddr_eq_ofNat hrow]
  exact whenReady_next.2 ⟨hready, rfl, (setCursor_eq column row s).symm⟩

/-- Settles O34: the one byte sent is the one byte taken, and its address stays below `0x80`. -/
theorem cursorLaw : Obligations.CursorLaw := by
  intro column row s t lines hsane hrow hbound hx
  obtain ⟨-, -, rfl⟩ := whenReady_next.1 hx
  have haddr := hbound (min row.toNat s.maxRow.toNat) (Nat.min_le_right _ _)
  refine ⟨cursorByte s.maxCol s.maxRow column row, ?value, ?bytes⟩
  case value => rw [cursorByte_toNat hrow (by omega), Nat.add_assoc]
  case bytes =>
    rw [setCursor_eq]
    exact logicalBytes_afterBytes lines _ hsane

/-- Settles O35: column 0 of the row, then the spaces. -/
theorem clearLineCompletes : Obligations.ClearLineCompletes := by
  intro row s hready hrow
  have hbyte : cursorByte s.maxCol s.maxRow 0x00#8 row
      = BitVec.ofNat 8 (0x80 + rowBase (min row.toNat s.maxRow.toNat)) := by
    rw [← cursorByte_column_zero_toNat s.maxCol hrow, BitVec.ofNat_toNat, BitVec.setWidth_eq]
  refine whenReady_next.2 ⟨hready, rfl, ?_⟩
  rw [clearLine_eq, hbyte, List.map_replicate]
  rfl

/-! Where the spaces of CLEARLINE land. -/

/-- A Command byte `0x80 + a` selects address `a` of DDRAM, whatever the address was (R34, R42). -/
theorem commandCursor_setDdram (cur : Option Cursor) {b : Byte} {a : Nat} (ha : a < 0x80) (hb : b.toNat = 0x80 + a) :
    commandCursor cur b = some { ram := .ddram, addr := some (BitVec.ofNat 7 a) } := by
  have hbyte : b = ddramByte (BitVec.ofNat 7 a) := by
    rw [ddramByte_eq_ofNat, BitVec.toNat_ofNat, Nat.mod_eq_of_lt ha, ← hb, BitVec.ofNat_toNat, BitVec.setWidth_eq]
  rw [commandCursor, hbyte, decodeCmd_ddramByte]

/-- Below the last address the next Data byte goes one further (R35). -/
theorem cursor_next_ddram {a : Nat} (h : a < 0x7F) :
    Cursor.next { ram := .ddram, addr := some (BitVec.ofNat 7 a) }
      = { ram := .ddram, addr := some (BitVec.ofNat 7 (a + 1)) } := by
  have htop : BitVec.ofNat 7 a ≠ Ram.ddram.top := by simp only [Ram.top]; bv_omega
  simp [Cursor.next, htop, BitVec.ofNat_add]

/-- A run of one Data byte that does not pass the last address lands on successive addresses of DDRAM (R35); by induction
on its length with its first address general. -/
theorem landings_replicate_data (v : Byte) {a n : Nat} (h : a + n ≤ 0x80) :
    landings (some { ram := .ddram, addr := some (BitVec.ofNat 7 a) }) (List.replicate n (.data, v))
      = (List.range n).map fun c => { ram := .ddram, addr := some (BitVec.ofNat 7 (a + c)), value := v } := by
  induction n generalizing a with
  | zero => rfl
  | succ n ih =>
    rw [List.replicate_succ, landings, List.range_succ_eq_map, List.map_cons, List.map_map]
    congr 1
    cases n with
    | zero => rfl
    | succ n =>
      rw [cursor_next_ddram (by omega), ih (by omega)]
      simp only [Function.comp_def, Nat.succ_eq_add_one, Nat.add_assoc, Nat.add_comm 1]

/-- Settles O36: the cursor command gives the first space the row's base, and the last of the spaces is still in
DDRAM. -/
theorem clearLineLandings : Obligations.ClearLineLandings := by
  intro row s t lines cur hsane hrow hx hbound
  obtain ⟨-, -, rfl⟩ := whenReady_next.1 hx
  have hcursor := commandCursor_setDdram cur (rowBase_lt _) (cursorByte_column_zero_toNat s.maxCol hrow row)
  rw [clearLine_eq, logicalBytes_afterBytes lines _ hsane, landings, hcursor, List.map_replicate]
  exact landings_replicate_data Config.space (by rw [clearCount]; omega)

end Sys2Proof.Machine
end

section
/-! LOADGLYPH (spec 42_display_control R113). -/

namespace Sys2Proof.Machine

theorem glyphBody_eq (bitmap : Bitmap) (slot : Byte) (s : State) :
    glyphBody bitmap slot s = s.afterBytes (glyphBytes bitmap slot) := by
  rw [glyphBody, sendGlyphRows_eq, rowBytes_cgramBase]

/-- Settles O39: the glyph's body is its logical bytes. -/
theorem loadGlyphCompletes : Obligations.LoadGlyphCompletes := by
  intro bitmap slot s hready hslot
  exact whenReady_next.2 ⟨hready, decide_eq_true hslot, (glyphBody_eq bitmap slot s).symm⟩

end Sys2Proof.Machine
end

section
/-! Text emission: PRINT, and the laws of the three text operations (spec 43_text_emission R121, R123). -/

namespace Sys2Proof.Machine

/-- Settles O44, from the bytes of PRINT and San in numbers. -/
theorem printCompletes : Obligations.PrintCompletes := by
  intro text s h htext
  refine whenReady_next.2 ⟨h, (textLegal_iff text).2 htext, ?_⟩
  rw [printText_eq]
  simp only [san_eq]

/-- San leaves no code below the space (R63). -/
theorem space_le_san_toNat (c : Byte) : 0x20 ≤ (san c).toNat := by
  rw [san_eq]
  split
  next => decide
  next h => omega

/-- What a text operation that completes has done (R120 to R122): it has sent Data bytes, none of them below the
space. -/
def PrintsText (s t : State) : Prop :=
  ∃ codes : List Byte, (∀ c ∈ codes, 0x20 ≤ c.toNat) ∧ t = s.afterBytes (codes.map fun c => (.data, c))

theorem printsText_printChar (c : Byte) (s : State) : PrintsText s (printChar c s) := by
  refine ⟨[san c], fun x hx => ?_, sendByte_eq _ _ _⟩
  rw [List.mem_singleton.1 hx]
  exact space_le_san_toNat c

theorem printsText_printText (text : List Byte) (s : State) : PrintsText s (printText text s) := by
  refine ⟨text.map san, fun x hx => ?_, by rw [printText_eq, List.map_map]; rfl⟩
  obtain ⟨c, -, rfl⟩ := List.mem_map.1 hx
  exact space_le_san_toNat c

theorem printsText_spaces (n : Nat) (s : State) :
    PrintsText s (sendDataBytes (List.replicate n Config.space) s) := by
  refine ⟨List.replicate n Config.space, fun x hx => ?_, sendDataBytes_eq _ _⟩
  rw [List.eq_of_mem_replicate hx]
  decide

theorem PrintsText.trans {s t u : State} (hst : PrintsText s t) (htu : PrintsText t u) : PrintsText s u := by
  obtain ⟨xs, hxs, rfl⟩ := hst
  obtain ⟨ys, hys, rfl⟩ := htu
  refine ⟨xs ++ ys, fun c hc => ?_, by rw [afterBytes_append, List.map_append]⟩
  exact (List.mem_append.1 hc).elim (hxs c) (hys c)

/-- The inversion of `exec` for the three text operations. -/
theorem printsText_of_exec {i : Instr} {s t : State}
    (hi : (∃ c, i = .printchar c) ∨ (∃ x, i = .print x) ∨ ∃ x, i = .printcenter x) (h : exec i s = .next t) :
    PrintsText s t := by
  rcases hi with ⟨c, rfl⟩ | ⟨text, rfl⟩ | ⟨text, rfl⟩ <;> obtain ⟨-, -, rfl⟩ := whenReady_next.1 h
  · exact printsText_printChar c s
  · exact printsText_printText text s
  · exact (printsText_spaces _ s).trans (printsText_printText text _)

/-- The display takes the Data bytes a text operation has sent, each of them a code from the space on (R123 (a)). -/
theorem PrintsText.logicalBytes_printable {s t : State} (h : PrintsText s t) (lines : Option Byte) (hs : s.pins.sane) :
    ∀ b ∈ logicalBytes s.pins lines (t.trace.drop s.trace.length),
      b.1 = .data ∧ 0x20 ≤ b.2.toNat ∧ b.2.toNat ≤ 0xFF := by
  obtain ⟨codes, hcodes, rfl⟩ := h
  rw [logicalBytes_afterBytes lines _ hs]
  intro b hb
  obtain ⟨c, hc, rfl⟩ := List.mem_map.1 hb
  exact ⟨rfl, hcodes c hc, Nat.le_of_lt_succ c.isLt⟩

/-- Nothing but the latch and the trace has changed (R123 (e)). -/
theorem PrintsText.frame {s t : State} (h : PrintsText s t) : t = { s with latch := t.latch, trace := t.trace } := by
  obtain ⟨codes, -, rfl⟩ := h
  rfl

/-- PRINT of a string put together is PRINT of its parts in order (R123 (c)). -/
theorem exec_print_append {x y : List Byte} {s : State} (h : s.fsm = .ready) (hxy : ∀ c ∈ x ++ y, c ≠ 0x00#8) :
    exec (.print (x ++ y)) s = execAll [.print x, .print y] s := by
  obtain ⟨hx, hy⟩ := List.forall_mem_append.1 hxy
  rw [execAll_cons _ (printCompletes x s h hx), execAll_cons _ (printCompletes y (s.afterBytes _) h hy),
    printCompletes _ s h hxy, afterBytes_append, List.map_append, execAll]

/-- PRINT of one character is PRINTCHAR, in every state (R123 (d)). -/
theorem exec_print_singleton {c : Byte} (hc : c ≠ 0x00#8) (s : State) :
    exec (.print [c]) s = exec (.printchar c) s := by
  have hlegal : textLegal [c] = true := (textLegal_iff [c]).2 (List.forall_mem_singleton.2 hc)
  calc exec (.print [c]) s
    _ = whenReady (textLegal [c]) (printChar c) s := rfl
    _ = exec (.printchar c) s := by rw [hlegal]; rfl

/-- Settles O46: (a) and (e) by the inversion `printsText_of_exec`, (b) by counting the bytes of PRINT and
PRINTCENTER. -/
theorem emissionLaws : Obligations.EmissionLaws := by
  refine ⟨fun i s t lines hi hx => ?codes, fun text s t lines hs => ⟨fun hx => ?printCount, fun hx => ?centerCount⟩,
    fun x y s h hxy => exec_print_append h hxy, fun c s hc => exec_print_singleton hc s⟩
  case codes =>
    have h := printsText_of_exec hi hx
    exact ⟨h.frame, h.logicalBytes_printable lines⟩
  case printCount =>
    obtain ⟨-, -, rfl⟩ := whenReady_next.1 hx
    rw [printText_eq, logicalBytes_afterBytes lines _ hs, List.length_map]
  case centerCount =>
    obtain ⟨-, -, rfl⟩ := whenReady_next.1 hx
    rw [printCenter_eq, logicalBytes_afterBytes lines _ hs, List.length_append, List.length_map, List.length_map,
      List.length_replicate, leadSpaces, Nat.zero_max]

end Sys2Proof.Machine
end

section
/-! The acceptance of host operations and their refusals (spec 60_exceptions R140; 30_encoding R57, R66). -/

namespace Sys2Proof.Machine

/-- INIT's own check passes exactly the operands in the ranges of R57. -/
theorem InitOperands.wellFormed_iff (o : InitOperands) : o.instr.wellFormed = true ↔ o.legal := by
  refine ⟨fun h => ?_, InitOperands.initLegal_of_legal⟩
  simp only [InitOperands.instr, Instr.wellFormed, initLegal, Bool.and_eq_true, decide_eq_true_eq] at h
  obtain ⟨⟨⟨⟨⟨⟨⟨hcolumns, hrows⟩, haddress⟩, horder⟩, henable⟩, hrw⟩, hrs⟩, hbacklight⟩ := h
  have horder01 : o.nibbleOrder = 0#8 ∨ o.nibbleOrder = 1#8 := by bv_omega
  exact ⟨⟨hcolumns, Nat.le_of_lt_succ o.columns.isLt⟩, hrows, haddress, horder01, henable, hrw, hrs, hbacklight⟩

/-- A running INIT takes no INIT, whatever the operands: the state is checked first (R140). -/
theorem exec_init_of_not_idle (o : InitOperands) {s : State} (h : s.fsm.idle = false) :
    exec o.instr s = .refused .notReady :=
  if_neg (by simp [h])

theorem exec_init_of_not_wellFormed {o : InitOperands} {s : State} (hidle : s.fsm.idle = true)
    (h : o.instr.wellFormed = false) : exec o.instr s = .refused .badOperand :=
  (if_pos hidle).trans (if_neg (Bool.eq_false_iff.1 h))

theorem whenReady_of_not_ready {legal : Bool} (f : State → State) {s : State} (h : s.fsm ≠ .ready) :
    whenReady legal f s = .refused .notReady :=
  if_neg h

theorem whenReady_of_not_legal {legal : Bool} (f : State → State) {s : State} (hready : s.fsm = .ready)
    (h : legal = false) : whenReady legal f s = .refused .badOperand :=
  (if_pos hready).trans (if_neg (Bool.eq_false_iff.1 h))

/-- Every host operation but INIT is accepted in `Ready`, with its operands checked next (R66, R140). -/
theorem exists_exec_eq_whenReady {i : Instr} (hi : i.format = .host) (hinit : isInit i = false) :
    ∃ f, ∀ s, exec i s = whenReady i.wellFormed f s := by
  cases i with
  | init c r a n e w k b => cases hinit
  | setcursor c r => exact ⟨setCursor c r, fun _ => rfl⟩
  | clearline r => exact ⟨clearLine r, fun _ => rfl⟩
  | setbacklight on => exact ⟨setBacklight on, fun _ => rfl⟩
  | loadglyph bitmap slot => exact ⟨glyphBody bitmap slot, fun _ => rfl⟩
  | printchar c => exact ⟨printChar c, fun _ => rfl⟩
  | print text => exact ⟨printText text, fun _ => rfl⟩
  | printcenter text => exact ⟨printCenter text, fun _ => rfl⟩
  | _ => cases hi

/-- Settles O48: INIT by its own acceptance, every other host operation by `whenReady`. -/
theorem acceptanceExact : Obligations.AcceptanceExact := by
  intro i s hi
  cases hinit : isInit i with
  | true =>
    obtain ⟨o, rfl⟩ := exists_operands_of_isInit hinit
    exact ⟨fun hidle hw => ⟨_, exec_init_of_legal (o.wellFormed_iff.1 hw) hidle⟩, exec_init_of_not_wellFormed,
      exec_init_of_not_idle o⟩
  | false =>
    obtain ⟨f, hexec⟩ := exists_exec_eq_whenReady hi hinit
    have haccepted : acceptedIn i s.fsm = (s.fsm == .ready) := if_neg (Bool.eq_false_iff.1 hinit)
    rw [haccepted, hexec, beq_iff_eq, beq_eq_false_iff_ne]
    exact ⟨fun hready hw => ⟨f s, whenReady_next.2 ⟨hready, hw, rfl⟩⟩, whenReady_of_not_legal f,
      whenReady_of_not_ready f⟩

/-- Settles O30: operands outside the ranges of R57 fail INIT's own check. -/
theorem initRefusals : Obligations.InitRefusals :=
  fun o _ => ⟨exec_init_of_not_idle o, fun hidle hlegal =>
    exec_init_of_not_wellFormed hidle (Bool.eq_false_iff.2 (mt o.wellFormed_iff.1 hlegal))⟩

end Sys2Proof.Machine
end

section
/-! A step between operations: the next operation of the command port (spec 60_exceptions R140). -/

namespace Sys2Proof.Machine

/-- Between operations a step is the decoded operation, its events carried over the ports. -/
theorem step_of_decode {s : State} {i : Instr} {rest : List Byte} (hn : noReset s.port = true)
    (hc : s.cmdReady = true) (hd : decode s.cmd = .ok i rest) :
    step s = settleOutcome (startFsm s.fsm i) s (exec i { s with cmd := rest }) := by
  rw [step_command hn hc, runCommand, hd]

/-- Settles O5: a quiet environment lets the decoded operation complete, and a refusal meets no port. -/
theorem stepRunsDecodedOperation : Obligations.StepRunsDecodedOperation := by
  intro s i rest hc hq hd
  rw [step_of_decode (noReset_of_quiet hq) hc hd]
  refine ⟨fun t hx => ?_, fun r hx => ?_⟩
  · rw [hx, settleOutcome, settle_quiet _ _ _ hq]
  · rw [hx, settleOutcome]

end Sys2Proof.Machine
end

section
/-! No operation reads the command bytes or the port inputs: they meet an operation in `settle` only (spec 60_exceptions
R133, R140; 70_reset_and_hazards R153). -/

namespace Sys2Proof.Machine

/-- The state with other inputs from the environment: other command bytes and other port inputs. -/
def State.withInputs (cmd : List Byte) (port : List PortIn) (s : State) : State := { s with cmd := cmd, port := port }

variable (cmd : List Byte) (port : List PortIn)

@[simp] theorem withInputs_fsm (s : State) : (s.withInputs cmd port).fsm = s.fsm := rfl

@[simp] theorem withInputs_nib (s : State) : (s.withInputs cmd port).nib = s.nib := rfl

@[simp] theorem withInputs_maxCol (s : State) : (s.withInputs cmd port).maxCol = s.maxCol := rfl

@[simp] theorem withInputs_maxRow (s : State) : (s.withInputs cmd port).maxRow = s.maxRow := rfl

/-! What the operations are made of passes the inputs through. -/

@[simp] theorem setFsm_withInputs (s : State) (f : Fsm) :
    (s.withInputs cmd port).setFsm f = (s.setFsm f).withInputs cmd port := rfl

@[simp] theorem delayMs_withInputs (n : Nat) (s : State) :
    delayMs n (s.withInputs cmd port) = (delayMs n s).withInputs cmd port := rfl

@[simp] theorem sendNibble_withInputs (p : Byte) (m : Mode) (s : State) :
    sendNibble p m (s.withInputs cmd port) = (sendNibble p m s).withInputs cmd port := rfl

@[simp] theorem sendByte_withInputs (v : Byte) (m : Mode) (s : State) :
    sendByte v m (s.withInputs cmd port) = (sendByte v m s).withInputs cmd port := rfl

@[simp] theorem afterBytes_withInputs (s : State) (bs : List (Mode × Byte)) :
    (s.withInputs cmd port).afterBytes bs = (s.afterBytes bs).withInputs cmd port := rfl

@[simp] theorem advance_withInputs (src dst : Fsm) (s : State) :
    advance src dst (s.withInputs cmd port) = (advance src dst s).withInputs cmd port := by
  unfold advance
  rw [withInputs_fsm]
  split <;> rfl

theorem actForce8_withInputs (s : State) :
    actForce8 (s.withInputs cmd port) = (actForce8 s).withInputs cmd port := by
  unfold actForce8
  rw [withInputs_fsm]
  split <;> rfl

theorem actGlyphLoad_withInputs (rom : Fin 8 → Bitmap) (s : State) :
    actGlyphLoad rom (s.withInputs cmd port) = (actGlyphLoad rom s).withInputs cmd port := by
  simp [actGlyphLoad, sendGlyphs_eq]

/-- A display operation passes the inputs through when its effect does. -/
theorem whenReady_withInputs {legal : Bool} {f : State → State} {s : State}
    (hf : f (s.withInputs cmd port) = (f s).withInputs cmd port) :
    whenReady legal f (s.withInputs cmd port) = mapNext (State.withInputs cmd port) (whenReady legal f s) := by
  unfold whenReady
  rw [withInputs_fsm, hf]
  split
  · split <;> rfl
  · rfl

theorem execInit_withInputs (c r a n e w k b : Byte) (s : State) :
    execInit c r a n e w k b (s.withInputs cmd port)
      = mapNext (State.withInputs cmd port) (execInit c r a n e w k b s) := by
  unfold execInit initWith
  rw [withInputs_fsm, runInit_eq, runInit_eq]
  split
  · split <;> rfl
  · rfl

/-- No instruction reads the environment's inputs: other inputs are carried over to the next state. -/
theorem exec_withInputs (i : Instr) (s : State) :
    exec i (s.withInputs cmd port) = mapNext (State.withInputs cmd port) (exec i s) := by
  cases i with
  | init c r a n e w k b => exact execInit_withInputs cmd port c r a n e w k b s
  | setcursor c r => exact whenReady_withInputs cmd port (by simp [setCursor_eq])
  | clearline r => exact whenReady_withInputs cmd port (by simp [clearLine_eq])
  | setbacklight on => exact whenReady_withInputs cmd port rfl
  | loadglyph bitmap slot => exact whenReady_withInputs cmd port (by simp [glyphBody_eq])
  | printchar c => exact whenReady_withInputs cmd port rfl
  | print text => exact whenReady_withInputs cmd port (by simp [printText_eq])
  | printcenter text => exact whenReady_withInputs cmd port (by simp [printCenter_eq])
  | addrw a => rfl
  | frame f => rfl
  | force8 => exact congrArg Host.Outcome.next (actForce8_withInputs cmd port s)
  | switch4 => exact congrArg Host.Outcome.next (by simp [actSwitch4])
  | functionSet => exact congrArg Host.Outcome.next (by simp [actFunctionSet])
  | displayOn => exact congrArg Host.Outcome.next (by simp [actDisplayOn])
  | clear => exact congrArg Host.Outcome.next (by simp [actClear])
  | entryMode => exact congrArg Host.Outcome.next (by simp [actEntryMode])
  | setCgram slot row => rfl
  | setDdram a => rfl
  | data d => rfl

/-- Nor does the action of an FSM state of a running INIT (R92 to R100). -/
theorem fsmAction_withInputs (s : State) :
    fsmAction (s.withInputs cmd port) = (fsmAction s).map (mapNext (State.withInputs cmd port)) := by
  unfold fsmAction
  simp only [withInputs_fsm, exec_withInputs, actGlyphLoad_withInputs]
  split <;> rfl

end Sys2Proof.Machine
end

section
/-! The command port inside INIT and of a stuck block (spec 60_exceptions R140, 40_transfer_primitives R85). -/

namespace Sys2Proof.Machine

/-- A reset at the port wins over everything else (R151). -/
theorem step_of_reset {s : State} {ins : List PortIn} (h : s.port = .reset :: ins) :
    step s = .next (applyReset { s with port := ins }) := by
  rw [step, stepBlock, h]

theorem exists_reset_of_noReset_eq_false {ins : List PortIn} (h : noReset ins = false) :
    ∃ left, ins = .reset :: left := by
  unfold noReset at h
  split at h
  next left => exact ⟨left, rfl⟩
  next => cases h

theorem exists_fsmAction_of_not_idle {s : State} (h : s.fsm.idle = false) : ∃ o, fsmAction s = some o := by
  cases ho : fsmAction s with
  | some o => exact ⟨o, rfl⟩
  | none =>
    unfold fsmAction at ho
    split at ho <;> simp_all [Fsm.idle]

/-- What the ports make of an operation does not depend on the command bytes. -/
theorem settleOutcome_withInputs (f : Fsm) (s : State) (cmd : List Byte) (port : List PortIn)
    (o : Host.Outcome State Fault Refusal) :
    settleOutcome f { s with cmd := cmd } (mapNext (State.withInputs cmd port) o)
      = mapNext (fun t => { t with cmd := cmd }) (settleOutcome f s o) := by
  cases o with
  | next t =>
    refine congrArg Host.Outcome.next ?_
    unfold settle
    simp only [State.withInputs]
    split <;> rfl
  | fault r => rfl
  | refused r => rfl

/-- Settles O8: a reset and a stuck block read no command, and the action of an FSM state passes the command bytes
through. -/
theorem commandNotReadDuringInit : Obligations.CommandNotReadDuringInit := by
  intro s cmd' hc
  cases hn : noReset s.port with
  | false =>
    obtain ⟨ins, hp⟩ := exists_reset_of_noReset_eq_false hn
    rw [step_of_reset hp, step_of_reset (s := { s with cmd := cmd' }) hp]
    rfl
  | true =>
    rcases Bool.eq_false_or_eq_true s.waiting with hw | hw
    · rw [step_of_waiting hw hn, step_of_waiting (s := { s with cmd := cmd' }) hw hn]
      rfl
    · have hidle : s.fsm.idle = false := by simpa [State.cmdReady, hw] using hc
      obtain ⟨o, ho⟩ := exists_fsmAction_of_not_idle hidle
      have ho' : fsmAction { s with cmd := cmd' } = some (mapNext (State.withInputs cmd' s.port) o) :=
        (fsmAction_withInputs cmd' s.port s).trans (by rw [ho]; rfl)
      rw [step_eq hn hw, step_eq (s := { s with cmd := cmd' }) hn hw, ho, ho']
      exact settleOutcome_withInputs s.fsm s cmd' s.port o

end Sys2Proof.Machine
end

section
/-! The acknowledge bits (spec 60_exceptions R133, 40_transfer_primitives R86). -/

namespace Sys2Proof.Machine

/-- How the ports carry some events, up to the acknowledge bits still to come. -/
inductive Carried.SameButAcks : Carried → Carried → Prop
  | all {ins ins' : List PortIn} (h : sameButAcks ins ins' = true) : SameButAcks (.all ins) (.all ins')
  | cut (k : Nat) {ins ins' : List PortIn} (h : sameButAcks ins ins' = true) : SameButAcks (.cut k ins) (.cut k ins')
  | hung (k : Nat) {ins ins' : List PortIn} (h : sameButAcks ins ins' = true) :
    SameButAcks (.hung k ins) (.hung k ins')

theorem Carried.SameButAcks.after {x y : Carried} (h : x.SameButAcks y) : x.after.SameButAcks y.after := by
  cases h with
  | all h => exact .all h
  | cut k h => exact .cut (k + 1) h
  | hung k h => exact .hung (k + 1) h

/-- The ports carry events alike for ack and for nack (R133). -/
theorem carry_sameButAcks (n : Nat) {ins ins' : List PortIn} (h : sameButAcks ins ins' = true) :
    (carry n ins).SameButAcks (carry n ins') := by
  induction n generalizing ins ins' with
  | zero => simpa only [carry] using .all h
  | succ n ih =>
    revert h
    fun_cases sameButAcks ins ins' <;> intro h
    · exact .all h
    · exact (ih h).after
    · exact .cut 0 h
    · exact .hung 1 h
    · cases h

/-- Inputs that differ in acknowledge bits only begin with a reset together or not at all. -/
theorem reset_or_noReset_of_sameButAcks {ins ins' : List PortIn} (h : sameButAcks ins ins' = true) :
    (∃ left left', ins = .reset :: left ∧ ins' = .reset :: left' ∧ sameButAcks left left' = true)
    ∨ noReset ins = true ∧ noReset ins' = true ∧ sameButAcks (ins.drop 1) (ins'.drop 1) = true := by
  revert h
  fun_cases sameButAcks ins ins' <;> intro h
  · exact .inr ⟨rfl, rfl, rfl⟩
  · exact .inr ⟨rfl, rfl, h⟩
  · exact .inl ⟨_, _, rfl, rfl, h⟩
  · exact .inr ⟨rfl, rfl, h⟩
  · cases h

variable {ins ins' : List PortIn}

/-- What the ports make of an operation does not depend on the acknowledge bits. -/
theorem settleOutcome_sameButAcks (f : Fsm) (s : State) (cmd : List Byte) (o : Host.Outcome State Fault Refusal)
    (h : sameButAcks ins ins' = true) :
    sameOutcomeButAcks (settleOutcome f { s with port := ins } (mapNext (State.withInputs cmd ins) o))
      (settleOutcome f { s with port := ins' } (mapNext (State.withInputs cmd ins') o)) := by
  cases o with
  | next t =>
    have hcarry := carry_sameButAcks (t.trace.length - s.trace.length) h
    simp only [mapNext, settleOutcome, settle, State.withInputs]
    generalize carry (t.trace.length - s.trace.length) ins = x at hcarry
    generalize carry (t.trace.length - s.trace.length) ins' = y at hcarry
    cases hcarry with
    | all h => exact And.intro rfl h
    | cut k h => exact And.intro rfl h
    | hung k h => exact And.intro rfl h
  | fault r => cases r
  | refused r => rfl

/-- The next command of the port, decoded from the same bytes, has the same outcome up to the acknowledge bits. -/
theorem runCommand_sameButAcks (s : State) (h : sameButAcks ins ins' = true) :
    sameOutcomeButAcks (runCommand { s with port := ins }) (runCommand { s with port := ins' }) := by
  unfold runCommand
  cases decode s.cmd with
  | ok i rest =>
    have hexec (p : List PortIn) :
        exec i { s with cmd := rest, port := p } = mapNext (State.withInputs rest p) (exec i s) :=
      exec_withInputs rest p i s
    simp only [hexec]
    exact settleOutcome_sameButAcks _ s rest _ h
  | incomplete => exact And.intro rfl h
  | reserved b => rfl

/-- Settles O9, over what a step can be: a reset, an input passed over, the action of the FSM's state, or a command. -/
theorem acknowledgeIgnored : Obligations.AcknowledgeIgnored := by
  intro s ins ins' h
  rcases reset_or_noReset_of_sameButAcks h with ⟨left, left', rfl, rfl, hleft⟩ | ⟨hn, hn', hdrop⟩
  · exact And.intro rfl hleft
  rcases Bool.eq_false_or_eq_true s.waiting with hw | hw
  · rw [step_of_waiting (s := { s with port := ins }) hw hn, step_of_waiting (s := { s with port := ins' }) hw hn']
    exact And.intro rfl hdrop
  · have haction (p : List PortIn) :
        fsmAction { s with port := p } = (fsmAction s).map (mapNext (State.withInputs s.cmd p)) :=
      fsmAction_withInputs s.cmd p s
    rw [step_eq (s := { s with port := ins }) hn hw, step_eq (s := { s with port := ins' }) hn' hw, haction ins,
      haction ins']
    cases fsmAction s with
    | some o => exact settleOutcome_sameButAcks s.fsm s s.cmd o h
    | none => exact runCommand_sameButAcks s h

end Sys2Proof.Machine
end

section
/-! A reset at the port, and one in mid-operation (spec 70_reset_and_hazards R150, R151). -/

namespace Sys2Proof.Machine

/-- Settles O13: a reset at the port wins over everything else. -/
theorem resetWins : Obligations.ResetWins :=
  fun _ _ hp => ⟨_, step_of_reset hp, rfl, rfl, rfl, rfl, rfl, rfl⟩

/-- A step leads to the rest of the run. -/
theorem core_run_succ (n : Nat) {s t : State} (h : step s = .next t) : core.run (n + 1) s = core.run n t := by
  have hstep : core.step s = .next t := h
  simp only [Host.Core.run, hstep]

/-- Between operations a reset after at least one event of the operation, and before the last, cuts it there: the events
issued stay, every register is reset (R151). -/
theorem step_of_cut {s t : State} {i : Instr} {rest : List Byte} {ack : Bool} {acks : List Bool} {ins : List PortIn}
    (hc : s.cmdReady = true) (hd : decode s.cmd = .ok i rest) (hx : exec i { s with cmd := rest } = .next t)
    (hlt : acks.length + 1 < t.trace.length - s.trace.length) (hp : s.port = dones (ack :: acks) ++ .reset :: ins) :
    step s = .next { applyReset t with trace := t.trace.take (s.trace.length + (acks.length + 1)), port := ins } := by
  have hn : noReset s.port = true := by rw [hp]; rfl
  rw [step_of_decode hn hc hd, hx, settleOutcome, settle, hp, carry_cut (ack :: acks) ins _ hlt]
  rfl

/-- Settles O14: the cut is `step_of_cut`; a hanging event leaves the block stuck, which the reset then ends. -/
theorem resetCutsOperation : Obligations.ResetCutsOperation := by
  intro s t i rest ack acks ins hc hd hx
  have heffect := hostEffect_of_exec (format_of_decode hd) hx
  obtain ⟨es, htrace⟩ := heffect.appendsShaped.trace_grows
  obtain ⟨(rfl : t.cmd = rest), -, -⟩ := heffect.inputs_eq
  refine ⟨fun hlt hp => step_of_cut hc hd hx hlt hp, fun hlt hp => ?_⟩
  have hstuck := step_of_hang hc hd hx hlt hp
  rw [core_run_succ 1 hstuck, core_run_succ 0 (step_of_reset rfl), ← stuckAt_trace (startFsm s.fsm i) s t _ es htrace]
  rfl

end Sys2Proof.Machine
end

section
/-! Where text lands after a glyph load or an INIT (spec 70_reset_and_hazards R168, 20_memory R34, R35). -/

namespace Sys2Proof.Machine

theorem landings_append (cur : Option Cursor) (xs ys : List (Mode × Byte)) :
    landings cur (xs ++ ys) = landings cur xs ++ landings (cursorAfter cur xs) ys := by
  induction xs generalizing cur with
  | nil => simp [landings, cursorAfter]
  | cons x xs ih =>
    obtain ⟨m, b⟩ := x
    cases m <;> cases cur <;> simp [landings, cursorAfter, ih]

/-- Data bytes stay in the memory the last command selected, every one of them (R34). -/
theorem landings_data_ram {α : Type} (value : α → Byte) (xs : List α) (c : Cursor) :
    (landings (some c) (xs.map fun x => (.data, value x))).map (fun l => l.ram)
      = List.replicate xs.length c.ram := by
  induction xs generalizing c with
  | nil => rfl
  | cons x xs ih => exact congrArg (c.ram :: ·) (ih c.next)

/-- The rows of a glyph and the text after them: nothing between selects another memory (R168). -/
theorem landings_glyphBytes_text_ram (bitmap : Bitmap) {slot : Byte} (hslot : slot.toNat ≤ 7) (text : List Byte)
    (cur : Option Cursor) :
    (landings cur (glyphBytes bitmap slot ++ text.map fun c => (.data, san c))).map (fun l => l.ram)
      = List.replicate (8 + text.length) .cgram := by
  obtain ⟨hrows, hafter⟩ := glyphLandings bitmap slot cur hslot
  rw [landings_append, List.map_append, hrows, hafter, landings_data_ram, List.replicate_add]
  rfl

/-- The last slot of `GLYPH_ROM` leaves CGRAM selected, its address past the last one unknown (R100, R168). -/
theorem cursorAfter_romBytes (cur : Option Cursor) :
    cursorAfter cur romBytes = some { ram := .cgram, addr := none } := by
  have hlast (before : Option Cursor) :
      cursorAfter before (glyphBytes (Config.glyphRom 7) 7#8) = some { ram := .cgram, addr := none } :=
    (glyphLandings (Config.glyphRom 7) 7#8 before (by decide)).2
  rw [romBytes, List.finRange_succ_last, List.flatMap_append, cursorAfter_append]
  exact hlast _

/-- Of the four Command bytes of INIT, CLEAR selects DDRAM 0 and ENTRY_MODE leaves it so (R96 to R99, R168). -/
theorem cursorAfter_initCommands (cur : Option Cursor) :
    cursorAfter cur [(.command, Config.cmdFunctionSet), (.command, Config.cmdDisplayOn), (.command, Config.cmdClear),
      (.command, Config.cmdEntryMode)] = some { ram := .ddram, addr := some 0#7 } := rfl

theorem cursorAfter_initBytes (cur : Option Cursor) :
    cursorAfter cur initBytes
      = some (if Config.hasGlyphs then { ram := .cgram, addr := none } else { ram := .ddram, addr := some 0#7 }) := by
  rw [initBytes, cursorAfter_append, cursorAfter_initCommands]
  split
  next => exact cursorAfter_romBytes _
  next => rfl

/-- Settles O42: the text after a LOADGLYPH by the cursor the glyph leaves, the text after an INIT by the cursor of its
last logical byte. -/
theorem textAfterGlyphsGoesToCgram : Obligations.TextAfterGlyphsGoesToCgram := by
  refine ⟨fun bitmap slot text s t u lines cur hs hload hprint => ?glyph, fun text cur => ?init⟩
  case glyph =>
    obtain ⟨-, hslot, rfl⟩ := whenReady_next.1 hload
    obtain ⟨-, -, rfl⟩ := whenReady_next.1 hprint
    rw [printText_eq, glyphBody_eq, afterBytes_append, logicalBytes_afterBytes lines _ hs]
    exact landings_glyphBytes_text_ram bitmap (of_decide_eq_true hslot) text cur
  case init =>
    rw [cursorAfter_initBytes]
    split
    next => exact landings_data_ram id text _
    next => rfl

end Sys2Proof.Machine
end

section
/-! The waits a step issues (spec 60_exceptions R142; 70_reset_and_hazards R160, R175). -/

namespace Sys2Proof.Machine

theorem delaysOf_bareWrite (a x : Byte) : delaysOf (bareWrite a x) = [] := rfl

/-- The waits of a host operation are INIT's alone (R142, R160). -/
theorem HostEffect.delaysOf_appended {i : Instr} {s t : State} (h : HostEffect i s t) :
    delaysOf (t.trace.drop s.trace.length) = if isInit i then [15, 5, 2] else [] := by
  rcases h with ⟨c, r, a, n, e, w, k, b, rfl, -, -, rfl⟩ | ⟨on, rfl, -, rfl⟩ | ⟨bs, hno, -, -, rfl⟩
  · rw [runInit_trace, configure_trace, List.drop_left, delaysOf_initEvents]
    rfl
  · rw [setBacklight_eq, List.drop_left, delaysOf_bareWrite]
    rfl
  · rw [hno, afterBytes_trace, List.drop_left, delaysOf_bytesEvents]
    rfl

/-- Settles O55: in a quiet environment the step's trace is the decoded operation's. -/
theorem waitsOnlyInInit : Obligations.WaitsOnlyInInit := by
  intro s t i rest hc hq hd h
  obtain ⟨hcompletes, hrefuses⟩ := stepRunsDecodedOperation s i rest hc hq hd
  cases hx : exec i { s with cmd := rest } with
  | next u =>
    rw [hcompletes u hx] at h
    cases h
    exact (hostEffect_of_exec (format_of_decode hd) hx).delaysOf_appended
  | fault f => cases f
  | refused r =>
    rw [hrefuses r hx] at h
    cases h

end Sys2Proof.Machine
end

section
/-! Before the first INIT nothing reads the configuration registers, which reset leaves unspecified (spec 10_state R27;
93_implementation_defined U12). -/

namespace Sys2Proof.Machine

/-- Settles O12: these are the fields of the reset state. -/
theorem resetRegisterValues : Obligations.ResetRegisterValues := ⟨rfl, rfl, rfl, rfl⟩

/-- The state with the configuration registers of another one. -/
def State.withConfigOf (s u : State) : State :=
  { s with nib := u.nib, enPos := u.enPos, rwPos := u.rwPos, rsPos := u.rsPos, blPos := u.blPos, addr := u.addr
           maxCol := u.maxCol, maxRow := u.maxRow }

@[simp] theorem withConfigOf_fsm (s u : State) : (s.withConfigOf u).fsm = s.fsm := rfl

/-- INIT's configuration write leaves nothing of the registers' old values (R90). -/
@[simp] theorem configure_withConfigOf (c r a n e w k b : Byte) (s u : State) :
    configure c r a n e w k b (s.withConfigOf u) = configure c r a n e w k b s := rfl

/-- INIT writes the configuration registers before anything reads them, so it does not see their old values (R90). -/
theorem execInit_withConfigOf (c r a n e w k b : Byte) (s u : State) :
    execInit c r a n e w k b (s.withConfigOf u) = execInit c r a n e w k b s := by
  rw [execInit, initWith, withConfigOf_fsm, configure_withConfigOf]
  rfl

/-- Outside `Ready` no host operation sees the configuration registers: INIT overwrites them, every other one is refused
(R90, R140). -/
theorem exec_withConfigOf {i : Instr} {s : State} (hi : i.format = .host) (hs : s.fsm ≠ .ready) (u : State) :
    exec i (s.withConfigOf u) = exec i s := by
  cases hinit : isInit i with
  | true =>
    obtain ⟨o, rfl⟩ := exists_operands_of_isInit hinit
    exact execInit_withConfigOf _ _ _ _ _ _ _ _ s u
  | false =>
    obtain ⟨f, hexec⟩ := exists_exec_eq_whenReady hi hinit
    calc exec i (s.withConfigOf u)
      _ = whenReady i.wellFormed f (s.withConfigOf u) := hexec _
      _ = .refused .notReady := whenReady_of_not_ready f hs
      _ = whenReady i.wellFormed f s := (whenReady_of_not_ready f hs).symm
      _ = exec i s := (hexec s).symm

/-- Settles O15: the two outcomes are equal by `exec_withConfigOf`, and neither is a fault, of which there are none. -/
theorem configUnreadBeforeInit : Obligations.ConfigUnreadBeforeInit := by
  intro s s' i hi hfsm hconfig
  have hs : s.fsm ≠ .ready := by simp [hfsm]
  have heq : exec i s' = exec i s := (congrArg (exec i) hconfig).trans (exec_withConfigOf hi hs s')
  rw [heq]
  cases exec i s with
  | next t => rfl
  | fault f => cases f
  | refused r => rfl

end Sys2Proof.Machine
end
